-- ==== Sys2Proof/Word.lean ====
section
/-! DEFINITION. The words of the hash engine: a byte, the 32-bit and the 64-bit word (00_scope.md R10).
Every word is unsigned and bit 0 is its least significant bit, so `BitVec` is the manual's own type; `+`, `&&&`, `|||`,
`^^^`, `~~~` and `>>>` on it are `add_w`, `and_w`, `or_w`, `xor_w`, `not_w` and `shr_w` of R11. -/

namespace Sys2Proof

/-- A byte, a value in `[0, 255]` (R10). -/
abbrev Byte := BitVec 8

/-- A 32-bit word: a chaining word of `F128`, `S1`, `S256` (R8, R180). -/
abbrev Word32 := BitVec 32

/-- A 64-bit word: a packet word, a response word, the bit counter, a chaining word of `F512`, `S384` (R8, R22, R71). -/
abbrev Word64 := BitVec 64

end Sys2Proof
end

