-- ==== Sys2Proof/Config.lean ====
section
/-! DEFINITION. What one instance of the engine fixes (00_scope.md R8, R9; the open parameters at the end of
92_eei_decisions.md) and the values the spec leaves without one (free values: constants with no body). -/

namespace Sys2Proof

/-- The elaboration parameter `ALG` (R2, R9): the two normative families, and the three optional sibling instances of
44_optional_siblings.md (R180), which that file offers as further values of `ALG`. -/
inductive Alg where
  /-- The 128-bit family (R2). -/
  | f128
  /-- The 512-bit family (R2). -/
  | f512
  /-- The optional instance `S1` (R183). -/
  | s1
  /-- The optional instance `S256` (R181, R182). -/
  | s256
  /-- The optional instance `S384` (R184). -/
  | s384
deriving DecidableEq, Repr

/-- The addresses `lo, lo + 1, …, hi - 1`; none when `hi ≤ lo`. -/
structure AddrRange where
  /-- First address of the range. -/
  lo : Nat
  /-- The address after the last one. -/
  hi : Nat
deriving DecidableEq, Repr

/-- The open parameters of an instance that `ALG` does not fix (R9). They are configuration: no step writes them. -/
structure Params where
  /-- `AW`, the host address width in bits, `1 ≤ AW ≤ 64` (R9, D4). -/
  aw : Nat
  /-- `CTX_SIZE`, the descriptor's context size, as `DESC` reports it (R9, R30, D6). -/
  ctxSize : Word64
  /-- The platform's holes: `MemValid` (R9, D5) is false exactly on these ranges and at and above `2^AW`. -/
  holes : List AddrRange
deriving DecidableEq, Repr

/-- `1 ≤ AW ≤ 64`, the range R9 gives the parameter. -/
def Params.wf (p : Params) : Bool := decide (1 ≤ p.aw) && decide (p.aw ≤ 64)

/-- The default of `CTX_SIZE` for each `ALG` (R9, R30; R180 for the siblings). -/
def Alg.defaultCtxSize : Alg → Word64
  | .f128 => 96
  | .f512 => 208
  | .s1 => 100
  | .s256 => 112
  | .s384 => 208

/-- The defaults of R9: `AW = 64`, `MemValid` true everywhere, `CTX_SIZE` as the table gives it. -/
def Params.default (a : Alg) : Params := { aw := 64, ctxSize := a.defaultCtxSize, holes := [] }

/-- What a byte of host memory that nothing has written reads as.
DESIGN CHOICE (notes/assumptions/3.md), unsafe: the spec gives host memory no initial contents. -/
def Config.unwrittenByte : Byte := 0

/-- Free 64-bit values: `Config.freeWord d i` is word `i` of draw number `d`. No body, so nothing can be proved of its
value. It stands where the spec says that a register "holds no value" (R31, R99, R220; notes/assumptions/4.md, 5.md). -/
opaque Config.freeWord : Nat → Nat → Word64

/-- Free bytes: `Config.freeByte d i` is byte `i` of draw number `d`. No body. It stands where the spec says that a
buffer or the bytes of a cut-off write "hold no value" (R31, R99, R220, R221; notes/assumptions/4.md, 5.md, 6.md). -/
opaque Config.freeByte : Nat → Nat → Byte

end Sys2Proof
end

