-- ==== Sys2Proof/Machine/Algorithm.lean ====
section
/-! DEFINITION. What `ALG` fixes (00_scope.md R8; 44_optional_siblings.md R180): the sizes, and the shape of the chaining
state. The chaining state's constructor IS the instance's `ALG`, so that a context and an `ALG` that disagree cannot be
written down (60_exceptions.md R204 row 3, U3: that mismatch cannot arise). -/

namespace Sys2Proof

/-- `B`, the block size in bytes (R8, R180). -/
def Alg.blockSize : Alg → Nat
  | .f128 => 64
  | .f512 => 128
  | .s1 => 64
  | .s256 => 64
  | .s384 => 128

/-- `OUT`, the digest size in bytes (R8, R180). -/
def Alg.outSize : Alg → Nat
  | .f128 => 16
  | .f512 => 64
  | .s1 => 20
  | .s256 => 32
  | .s384 => 48

/-- `LENF`, the bytes of the length field at the end of the last block (R8, R180). -/
def Alg.lenFieldSize : Alg → Nat
  | .f128 => 8
  | .f512 => 16
  | .s1 => 8
  | .s256 => 8
  | .s384 => 16

/-- `ROUNDS` (R8, R180). -/
def Alg.rounds : Alg → Nat
  | .f128 => 64
  | .f512 => 80
  | .s1 => 80
  | .s256 => 64
  | .s384 => 80

namespace Machine

/-- Four 32-bit words `a, b, c, d` (R32): the chaining state and the working registers of `F128`. -/
structure Quad where
  a : Word32
  b : Word32
  c : Word32
  d : Word32
deriving DecidableEq, Repr

/-- Five 32-bit words: the chaining state and the working registers of `S1` (R183). -/
structure Pent where
  a : Word32
  b : Word32
  c : Word32
  d : Word32
  e : Word32
deriving DecidableEq, Repr

/-- Eight words `a .. h` of `w` bits (R32): the chaining state and the working registers of `F512` and `S384` (`w = 64`)
and of `S256` (`w = 32`, R182). -/
structure Oct (w : Nat) where
  a : BitVec w
  b : BitVec w
  c : BitVec w
  d : BitVec w
  e : BitVec w
  f : BitVec w
  g : BitVec w
  h : BitVec w
deriving DecidableEq, Repr

/-- The chaining state `H[0..NW-1]` (R20, R21): `NW` words of `WBITS` bits, in the shape `ALG` gives it. Word `i` is the
`i`-th named field. -/
inductive Chain where
  /-- `F128`: 4 words of 32 bits. -/
  | f128 (v : Quad)
  /-- `F512`: 8 words of 64 bits. -/
  | f512 (v : Oct 64)
  /-- `S1`: 5 words of 32 bits. -/
  | s1 (v : Pent)
  /-- `S256`: 8 words of 32 bits. -/
  | s256 (v : Oct 32)
  /-- `S384`: 8 words of 64 bits. -/
  | s384 (v : Oct 64)
deriving DecidableEq, Repr

/-- The `ALG` a chaining state belongs to. -/
def Chain.alg : Chain → Alg
  | .f128 _ => .f128
  | .f512 _ => .f512
  | .s1 _ => .s1
  | .s256 _ => .s256
  | .s384 _ => .s384

/-- The chaining state of `ALG` whose word `i` is `f i`, cut to the width of a word. -/
def Chain.ofWords (a : Alg) (f : Nat → Word64) : Chain :=
  match a with
  | .f128 => .f128 ⟨(f 0).setWidth 32, (f 1).setWidth 32, (f 2).setWidth 32, (f 3).setWidth 32⟩
  | .f512 => .f512 ⟨f 0, f 1, f 2, f 3, f 4, f 5, f 6, f 7⟩
  | .s1 => .s1 ⟨(f 0).setWidth 32, (f 1).setWidth 32, (f 2).setWidth 32, (f 3).setWidth 32, (f 4).setWidth 32⟩
  | .s256 =>
    .s256 ⟨(f 0).setWidth 32, (f 1).setWidth 32, (f 2).setWidth 32, (f 3).setWidth 32,
      (f 4).setWidth 32, (f 5).setWidth 32, (f 6).setWidth 32, (f 7).setWidth 32⟩
  | .s384 => .s384 ⟨f 0, f 1, f 2, f 3, f 4, f 5, f 6, f 7⟩

/-- A hash context without its phase (R20): the chaining state, the bit counter, the block buffer and the fill cursor.
The host's context and the HMAC scratch context are each one of these (R31). The chaining type is a parameter because
40_hash_commands.md writes the buffering and padding logic once for every family (R90). -/
structure HashCtx (χ : Type) where
  /-- `H` (R21). -/
  h : χ
  /-- `COUNT`, the message length in bits, 64 bits wide for every family (R22, C4). -/
  count : Word64
  /-- `BUF[0..B-1]`, in index order (R23). -/
  buf : List Byte
  /-- `FILL`, the number of bytes buffered (R24). -/
  fill : Nat
deriving DecidableEq, Repr

/-- What a family supplies to the shared buffering and padding logic (R90), with the sizes that logic uses (R8). -/
structure Family (χ : Type) where
  /-- `B`. -/
  blockSize : Nat
  /-- `LENF`. -/
  lenFieldSize : Nat
  /-- `IV`. -/
  iv : χ
  /-- `Compress(Hin, blk)`. -/
  compress : χ → List Byte → χ
  /-- `LenField(L)`. -/
  lenField : Word64 → List Byte
  /-- `Serialize(Hw)`. -/
  serialize : χ → List Byte

end Machine

end Sys2Proof
end

