-- ==== Sys2Proof/Machine/Operands.lean ====
section
/-! DEFINITION. The operand primitives of 00_scope.md: rotations (R11), word assembly and disassembly (R12, R180), byte
sequences (R10), and the copy into the block buffer of 40_hash_commands.md R94. -/

namespace Sys2Proof.Machine

/-- `rotl_w(x, n)` (R11). Every amount in the engine lies strictly between 0 and `w` (D24). -/
def rotl {w : Nat} (x : BitVec w) (n : Nat) : BitVec w := x.rotateLeft n

/-- `rotr_w(x, n)` (R11). -/
def rotr {w : Nat} (x : BitVec w) (n : Nat) : BitVec w := x.rotateRight n

/-- `s[i]` (R10). Every index the engine uses is inside the sequence; outside it the value is 0. -/
def byteAt (s : List Byte) (i : Nat) : Byte := s.getD i 0

/-- `le32` (R12): the first byte is the least significant. -/
def le32 (b0 b1 b2 b3 : Byte) : Word32 := (b3 ++ b2 ++ b1 ++ b0 : BitVec (8 + 8 + 8 + 8))

/-- `be32` (R180): the first byte is the most significant. -/
def be32 (b0 b1 b2 b3 : Byte) : Word32 := (b0 ++ b1 ++ b2 ++ b3 : BitVec (8 + 8 + 8 + 8))

/-- `be64` (R12): the first byte is the most significant. -/
def be64 (b0 b1 b2 b3 b4 b5 b6 b7 : Byte) : Word64 :=
  (b0 ++ b1 ++ b2 ++ b3 ++ b4 ++ b5 ++ b6 ++ b7 : BitVec (8 + 8 + 8 + 8 + 8 + 8 + 8 + 8))

/-- `tole32` (R12). -/
def tole32 (x : Word32) : List Byte :=
  [x.extractLsb' 0 8, x.extractLsb' 8 8, x.extractLsb' 16 8, x.extractLsb' 24 8]

/-- The big-endian bytes of a 32-bit word (R180). -/
def tobe32 (x : Word32) : List Byte :=
  [x.extractLsb' 24 8, x.extractLsb' 16 8, x.extractLsb' 8 8, x.extractLsb' 0 8]

/-- `tole64` (R12). -/
def tole64 (x : Word64) : List Byte :=
  [x.extractLsb' 0 8, x.extractLsb' 8 8, x.extractLsb' 16 8, x.extractLsb' 24 8,
   x.extractLsb' 32 8, x.extractLsb' 40 8, x.extractLsb' 48 8, x.extractLsb' 56 8]

/-- `tobe64` (R12). -/
def tobe64 (x : Word64) : List Byte :=
  [x.extractLsb' 56 8, x.extractLsb' 48 8, x.extractLsb' 40 8, x.extractLsb' 32 8,
   x.extractLsb' 24 8, x.extractLsb' 16 8, x.extractLsb' 8 8, x.extractLsb' 0 8]

/-- Sixteen little-endian 32-bit words of a block (R125). -/
def parseLe32 (blk : List Byte) : List Word32 :=
  (List.range 16).map fun j =>
    le32 (byteAt blk (4 * j)) (byteAt blk (4 * j + 1)) (byteAt blk (4 * j + 2)) (byteAt blk (4 * j + 3))

/-- Sixteen big-endian 32-bit words of a block (R180). -/
def parseBe32 (blk : List Byte) : List Word32 :=
  (List.range 16).map fun j =>
    be32 (byteAt blk (4 * j)) (byteAt blk (4 * j + 1)) (byteAt blk (4 * j + 2)) (byteAt blk (4 * j + 3))

/-- Sixteen big-endian 64-bit words of a block (R145). -/
def parseBe64 (blk : List Byte) : List Word64 :=
  (List.range 16).map fun j =>
    be64 (byteAt blk (8 * j)) (byteAt blk (8 * j + 1)) (byteAt blk (8 * j + 2)) (byteAt blk (8 * j + 3))
      (byteAt blk (8 * j + 4)) (byteAt blk (8 * j + 5)) (byteAt blk (8 * j + 6)) (byteAt blk (8 * j + 7))

/-- `buf[pos .. pos + |s|) <- s` (R94): the other bytes keep their place. -/
def splice (buf : List Byte) (pos : Nat) (s : List Byte) : List Byte :=
  buf.take pos ++ s ++ buf.drop (pos + s.length)

/-- Entry `i` of a constant table that the spec lists four to a row (R121, R141, R181): row `i / 4`, place `i mod 4`. -/
def tableAt {w : Nat} (rows : List (List (BitVec w))) (i : Nat) : BitVec w := (rows.getD (i / 4) []).getD (i % 4) 0

end Sys2Proof.Machine
end

