-- ==== Sys2Proof/Machine/CompressF128.lean ====
section
/-! DEFINITION. The compression engine of the 128-bit family (41_compress_f128.md R120 to R129): tables, mixing
functions, one round, `Compress`, `LenField`, `Serialize`. -/

namespace Sys2Proof.Machine

/-- `IV128` (R120). -/
def iv128 : Quad := ⟨0x67452301, 0xefcdab89, 0x98badcfe, 0x10325476⟩

/-- The table `K128` (R121), row by row as the spec lists it: row `r` is `K128[4r] .. K128[4r+3]`. -/
def k128Rows : List (List Word32) :=
  [[0xd76aa478, 0xe8c7b756, 0x242070db, 0xc1bdceee],
   [0xf57c0faf, 0x4787c62a, 0xa8304613, 0xfd469501],
   [0x698098d8, 0x8b44f7af, 0xffff5bb1, 0x895cd7be],
   [0x6b901122, 0xfd987193, 0xa679438e, 0x49b40821]] ++
  [[0xf61e2562, 0xc040b340, 0x265e5a51, 0xe9b6c7aa],
   [0xd62f105d, 0x02441453, 0xd8a1e681, 0xe7d3fbc8],
   [0x21e1cde6, 0xc33707d6, 0xf4d50d87, 0x455a14ed],
   [0xa9e3e905, 0xfcefa3f8, 0x676f02d9, 0x8d2a4c8a]] ++
  [[0xfffa3942, 0x8771f681, 0x6d9d6122, 0xfde5380c],
   [0xa4beea44, 0x4bdecfa9, 0xf6bb4b60, 0xbebfbc70],
   [0x289b7ec6, 0xeaa127fa, 0xd4ef3085, 0x04881d05],
   [0xd9d4d039, 0xe6db99e5, 0x1fa27cf8, 0xc4ac5665]] ++
  [[0xf4292244, 0x432aff97, 0xab9423a7, 0xfc93a039],
   [0x655b59c3, 0x8f0ccc92, 0xffeff47d, 0x85845dd1],
   [0x6fa87e4f, 0xfe2ce6e0, 0xa3014314, 0x4e0811a1],
   [0xf7537e82, 0xbd3af235, 0x2ad7d2bb, 0xeb86d391]]

/-- `K128[i]` (R121). -/
def k128 (i : Nat) : Word32 := tableAt k128Rows i

/-- `S128[i]`, the left-rotation amount of round `i` (R122): four amounts a quadrant, repeated four times. -/
def s128 (i : Nat) : Nat :=
  (([[7, 12, 17, 22], [5, 9, 14, 20], [4, 11, 16, 23], [6, 10, 15, 21]] : List (List Nat)).getD (i / 16) []).getD (i % 4) 0

/-- `G128[i]`, the message word round `i` uses (R123). -/
def g128 (i : Nat) : Nat :=
  match i / 16 with
  | 0 => i % 16
  | 1 => (5 * i + 1) % 16
  | 2 => (3 * i + 5) % 16
  | _ => 7 * i % 16

/-- `F128(q, b, c, d)`, the mixing function of quadrant `q` (R124). -/
def mix128 (q : Nat) (b c d : Word32) : Word32 :=
  match q with
  | 0 => (b &&& c) ||| (~~~b &&& d)
  | 1 => (d &&& b) ||| (~~~d &&& c)
  | 2 => b ^^^ c ^^^ d
  | _ => c ^^^ (b ||| ~~~d)

/-- Round `i` on the message words `m` (R126): the new `b` is mixed, the other three words move round the ring. -/
def round128 (m : List Word32) (v : Quad) (i : Nat) : Quad :=
  let t := v.a + mix128 (i / 16) v.b v.c v.d + k128 i + m.getD (g128 i) 0
  ⟨v.d, v.b + rotl t (s128 i), v.b, v.c⟩

/-- `Compress(Hin, blk)` of `F128` (R126): 64 rounds, then the feed-forward. -/
def compress128 (hin : Quad) (blk : List Byte) : Quad :=
  let v := (List.range 64).foldl (round128 (parseLe32 blk)) hin
  ⟨hin.a + v.a, hin.b + v.b, hin.c + v.c, hin.d + v.d⟩

/-- `LenField(L)` of `F128` (R127). -/
def lenField128 (l : Word64) : List Byte := tole64 l

/-- `Serialize(Hw)` of `F128` (R128). -/
def serialize128 (h : Quad) : List Byte := tole32 h.a ++ tole32 h.b ++ tole32 h.c ++ tole32 h.d

end Sys2Proof.Machine
end

