-- ==== Sys2Proof/Machine/CompressF512.lean ====
section
/-! DEFINITION. The compression engine of the 512-bit family (42_compress_f512.md R140 to R151). The schedule, the round
and the feed-forward are written once for words of any width, because `S256` has "the same shape … on 32-bit words"
(44_optional_siblings.md R182). -/

namespace Sys2Proof.Machine

/-- What the shared shape of R145 to R148 and R182 takes from an instance: its mixing functions, its round constants and
its number of rounds. -/
structure ShaShape (w : Nat) where
  /-- `SmallSigma0`. -/
  smallSigma0 : BitVec w → BitVec w
  /-- `SmallSigma1`. -/
  smallSigma1 : BitVec w → BitVec w
  /-- `BigSigma0`. -/
  bigSigma0 : BitVec w → BitVec w
  /-- `BigSigma1`. -/
  bigSigma1 : BitVec w → BitVec w
  /-- The round constant of each round. -/
  k : Nat → BitVec w
  /-- `ROUNDS`. -/
  rounds : Nat

/-- `Ch(e, f, g)` (R142). -/
def ch {w : Nat} (e f g : BitVec w) : BitVec w := (e &&& f) ^^^ (~~~e &&& g)

/-- `Maj(a, b, c)` (R142). -/
def maj {w : Nat} (a b c : BitVec w) : BitVec w := (a &&& b) ^^^ (a &&& c) ^^^ (b &&& c)

/-- `W[t]` from the schedule words before it (R146). -/
def scheduleWord {w : Nat} (p : ShaShape w) (ws : List (BitVec w)) (t : Nat) : BitVec w :=
  p.smallSigma1 (ws.getD (t - 2) 0) + ws.getD (t - 7) 0 + p.smallSigma0 (ws.getD (t - 15) 0) + ws.getD (t - 16) 0

/-- The message schedule (R146): the sixteen words of the block, then one word after another in ascending order. -/
def schedule {w : Nat} (p : ShaShape w) (blk : List (BitVec w)) : List (BitVec w) :=
  (List.range (p.rounds - 16)).foldl (fun ws k => ws ++ [scheduleWord p ws (k + 16)]) blk

/-- Round `t` on the schedule `ws` (R147). -/
def shaRound {w : Nat} (p : ShaShape w) (ws : List (BitVec w)) (v : Oct w) (t : Nat) : Oct w :=
  let t1 := v.h + p.bigSigma1 v.e + ch v.e v.f v.g + p.k t + ws.getD t 0
  let t2 := p.bigSigma0 v.a + maj v.a v.b v.c
  ⟨t1 + t2, v.a, v.b, v.c, v.d + t1, v.e, v.f, v.g⟩

/-- `Compress` of the shared shape on the sixteen words of a block (R148, R182): schedule, rounds, feed-forward. -/
def shaCompress {w : Nat} (p : ShaShape w) (hin : Oct w) (blk : List (BitVec w)) : Oct w :=
  let v := (List.range p.rounds).foldl (shaRound p (schedule p blk)) hin
  ⟨hin.a + v.a, hin.b + v.b, hin.c + v.c, hin.d + v.d, hin.e + v.e, hin.f + v.f, hin.g + v.g, hin.h + v.h⟩

/-- `IV512` (R140). -/
def iv512 : Oct 64 :=
  ⟨0x6a09e667f3bcc908, 0xbb67ae8584caa73b, 0x3c6ef372fe94f82b, 0xa54ff53a5f1d36f1,
   0x510e527fade682d1, 0x9b05688c2b3e6c1f, 0x1f83d9abfb41bd6b, 0x5be0cd19137e2179⟩

/-- The table `K512` (R141), row by row as the spec lists it: row `r` is `K512[4r] .. K512[4r+3]`. -/
def k512Rows : List (List Word64) :=
  [[0x428a2f98d728ae22, 0x7137449123ef65cd, 0xb5c0fbcfec4d3b2f, 0xe9b5dba58189dbbc],
   [0x3956c25bf348b538, 0x59f111f1b605d019, 0x923f82a4af194f9b, 0xab1c5ed5da6d8118],
   [0xd807aa98a3030242, 0x12835b0145706fbe, 0x243185be4ee4b28c, 0x550c7dc3d5ffb4e2],
   [0x72be5d74f27b896f, 0x80deb1fe3b1696b1, 0x9bdc06a725c71235, 0xc19bf174cf692694]] ++
  [[0xe49b69c19ef14ad2, 0xefbe4786384f25e3, 0x0fc19dc68b8cd5b5, 0x240ca1cc77ac9c65],
   [0x2de92c6f592b0275, 0x4a7484aa6ea6e483, 0x5cb0a9dcbd41fbd4, 0x76f988da831153b5],
   [0x983e5152ee66dfab, 0xa831c66d2db43210, 0xb00327c898fb213f, 0xbf597fc7beef0ee4],
   [0xc6e00bf33da88fc2, 0xd5a79147930aa725, 0x06ca6351e003826f, 0x142929670a0e6e70]] ++
  [[0x27b70a8546d22ffc, 0x2e1b21385c26c926, 0x4d2c6dfc5ac42aed, 0x53380d139d95b3df],
   [0x650a73548baf63de, 0x766a0abb3c77b2a8, 0x81c2c92e47edaee6, 0x92722c851482353b],
   [0xa2bfe8a14cf10364, 0xa81a664bbc423001, 0xc24b8b70d0f89791, 0xc76c51a30654be30],
   [0xd192e819d6ef5218, 0xd69906245565a910, 0xf40e35855771202a, 0x106aa07032bbd1b8]] ++
  [[0x19a4c116b8d2d0c8, 0x1e376c085141ab53, 0x2748774cdf8eeb99, 0x34b0bcb5e19b48a8],
   [0x391c0cb3c5c95a63, 0x4ed8aa4ae3418acb, 0x5b9cca4f7763e373, 0x682e6ff3d6b2b8a3],
   [0x748f82ee5defb2fc, 0x78a5636f43172f60, 0x84c87814a1f0ab72, 0x8cc702081a6439ec],
   [0x90befffa23631e28, 0xa4506cebde82bde9, 0xbef9a3f7b2c67915, 0xc67178f2e372532b]] ++
  [[0xca273eceea26619c, 0xd186b8c721c0c207, 0xeada7dd6cde0eb1e, 0xf57d4f7fee6ed178],
   [0x06f067aa72176fba, 0x0a637dc5a2c898a6, 0x113f9804bef90dae, 0x1b710b35131c471b],
   [0x28db77f523047d84, 0x32caab7b40c72493, 0x3c9ebe0a15c9bebc, 0x431d67c49c100d4c],
   [0x4cc5d4becb3e42b6, 0x597f299cfc657e2a, 0x5fcb6fab3ad6faec, 0x6c44198c4a475817]]

/-- `K512[t]` (R141). -/
def k512 (t : Nat) : Word64 := tableAt k512Rows t

/-- `BigSigma0` (R143). -/
def bigSigma0 (x : Word64) : Word64 := rotr x 28 ^^^ rotr x 34 ^^^ rotr x 39

/-- `BigSigma1` (R143). -/
def bigSigma1 (x : Word64) : Word64 := rotr x 14 ^^^ rotr x 18 ^^^ rotr x 41

/-- `SmallSigma0` (R144); the third term is a shift. -/
def smallSigma0 (x : Word64) : Word64 := rotr x 1 ^^^ rotr x 8 ^^^ (x >>> 7)

/-- `SmallSigma1` (R144); the third term is a shift. -/
def smallSigma1 (x : Word64) : Word64 := rotr x 19 ^^^ rotr x 61 ^^^ (x >>> 6)

/-- The functions, constants and round count of `F512`. -/
def sha512Shape : ShaShape 64 := ⟨smallSigma0, smallSigma1, bigSigma0, bigSigma1, k512, 80⟩

/-- `Compress(Hin, blk)` of `F512` (R148). -/
def compress512 (hin : Oct 64) (blk : List Byte) : Oct 64 := shaCompress sha512Shape hin (parseBe64 blk)

/-- `LenField(L)` of `F512` (R149, C3): eight zero bytes, then the 64-bit big-endian length. -/
def lenField512 (l : Word64) : List Byte := List.replicate 8 0 ++ tobe64 l

/-- `Serialize(Hw)` of `F512` (R150). -/
def serialize512 (h : Oct 64) : List Byte :=
  tobe64 h.a ++ tobe64 h.b ++ tobe64 h.c ++ tobe64 h.d ++ tobe64 h.e ++ tobe64 h.f ++ tobe64 h.g ++ tobe64 h.h

end Sys2Proof.Machine
end

