-- ==== Sys2Proof/Machine/CompressSiblings.lean ====
section
/-! DEFINITION. The optional sibling instances `S256`, `S1` and `S384` (44_optional_siblings.md R180 to R185):
non-normative in the spec, modelled as the further values of `ALG` that file offers. -/

namespace Sys2Proof.Machine

/-- `IV256` (R181). -/
def iv256 : Oct 32 :=
  ⟨0x6a09e667, 0xbb67ae85, 0x3c6ef372, 0xa54ff53a, 0x510e527f, 0x9b05688c, 0x1f83d9ab, 0x5be0cd19⟩

/-- The table `K256` (R181), row by row as the spec lists it: row `r` is `K256[4r] .. K256[4r+3]`. -/
def k256Rows : List (List Word32) :=
  [[0x428a2f98, 0x71374491, 0xb5c0fbcf, 0xe9b5dba5],
   [0x3956c25b, 0x59f111f1, 0x923f82a4, 0xab1c5ed5],
   [0xd807aa98, 0x12835b01, 0x243185be, 0x550c7dc3],
   [0x72be5d74, 0x80deb1fe, 0x9bdc06a7, 0xc19bf174]] ++
  [[0xe49b69c1, 0xefbe4786, 0x0fc19dc6, 0x240ca1cc],
   [0x2de92c6f, 0x4a7484aa, 0x5cb0a9dc, 0x76f988da],
   [0x983e5152, 0xa831c66d, 0xb00327c8, 0xbf597fc7],
   [0xc6e00bf3, 0xd5a79147, 0x06ca6351, 0x14292967]] ++
  [[0x27b70a85, 0x2e1b2138, 0x4d2c6dfc, 0x53380d13],
   [0x650a7354, 0x766a0abb, 0x81c2c92e, 0x92722c85],
   [0xa2bfe8a1, 0xa81a664b, 0xc24b8b70, 0xc76c51a3],
   [0xd192e819, 0xd6990624, 0xf40e3585, 0x106aa070]] ++
  [[0x19a4c116, 0x1e376c08, 0x2748774c, 0x34b0bcb5],
   [0x391c0cb3, 0x4ed8aa4a, 0x5b9cca4f, 0x682e6ff3],
   [0x748f82ee, 0x78a5636f, 0x84c87814, 0x8cc70208],
   [0x90befffa, 0xa4506ceb, 0xbef9a3f7, 0xc67178f2]]

/-- `K256[t]` (R181). -/
def k256 (t : Nat) : Word32 := tableAt k256Rows t

/-- `S0` (R182). -/
def bigSigma0S256 (x : Word32) : Word32 := rotr x 2 ^^^ rotr x 13 ^^^ rotr x 22

/-- `S1` (R182). -/
def bigSigma1S256 (x : Word32) : Word32 := rotr x 6 ^^^ rotr x 11 ^^^ rotr x 25

/-- `s0` (R182). -/
def smallSigma0S256 (x : Word32) : Word32 := rotr x 7 ^^^ rotr x 18 ^^^ (x >>> 3)

/-- `s1` (R182). -/
def smallSigma1S256 (x : Word32) : Word32 := rotr x 17 ^^^ rotr x 19 ^^^ (x >>> 10)

/-- The functions, constants and round count of `S256`. -/
def sha256Shape : ShaShape 32 := ⟨smallSigma0S256, smallSigma1S256, bigSigma0S256, bigSigma1S256, k256, 64⟩

/-- `Compress(Hin, blk)` of `S256` (R182). -/
def compress256 (hin : Oct 32) (blk : List Byte) : Oct 32 := shaCompress sha256Shape hin (parseBe32 blk)

/-- `LenField(L)` of `S1` and `S256` (R180). -/
def lenFieldBe64 (l : Word64) : List Byte := tobe64 l

/-- `Serialize(Hw)` of `S256` (R180). -/
def serialize256 (h : Oct 32) : List Byte :=
  tobe32 h.a ++ tobe32 h.b ++ tobe32 h.c ++ tobe32 h.d ++ tobe32 h.e ++ tobe32 h.f ++ tobe32 h.g ++ tobe32 h.h

/-- `IV1` (R183). -/
def ivS1 : Pent := ⟨0x67452301, 0xefcdab89, 0x98badcfe, 0x10325476, 0xc3d2e1f0⟩

/-- `K1[q]`, the constant of twenty-round group `q` (R183). -/
def kS1 (q : Nat) : Word32 :=
  match q with
  | 0 => 0x5a827999
  | 1 => 0x6ed9eba1
  | 2 => 0x8f1bbcdc
  | _ => 0xca62c1d6

/-- The round function of twenty-round group `q` (R183). -/
def mixS1 (q : Nat) (b c d : Word32) : Word32 :=
  match q with
  | 0 => (b &&& c) ||| (~~~b &&& d)
  | 1 => b ^^^ c ^^^ d
  | 2 => (b &&& c) ||| (b &&& d) ||| (c &&& d)
  | _ => b ^^^ c ^^^ d

/-- The message schedule of `S1` (R183). -/
def scheduleS1 (blk : List Word32) : List Word32 :=
  (List.range 64).foldl
    (fun ws k =>
      let t := k + 16
      ws ++ [rotl (ws.getD (t - 3) 0 ^^^ ws.getD (t - 8) 0 ^^^ ws.getD (t - 14) 0 ^^^ ws.getD (t - 16) 0) 1])
    blk

/-- Round `t` of `S1` (R183). -/
def roundS1 (ws : List Word32) (v : Pent) (t : Nat) : Pent :=
  let q := t / 20
  ⟨rotl v.a 5 + mixS1 q v.b v.c v.d + v.e + kS1 q + ws.getD t 0, v.a, rotl v.b 30, v.c, v.d⟩

/-- `Compress(Hin, blk)` of `S1` (R183). -/
def compressS1 (hin : Pent) (blk : List Byte) : Pent :=
  let v := (List.range 80).foldl (roundS1 (scheduleS1 (parseBe32 blk))) hin
  ⟨hin.a + v.a, hin.b + v.b, hin.c + v.c, hin.d + v.d, hin.e + v.e⟩

/-- `Serialize(Hw)` of `S1` (R180). -/
def serializeS1 (h : Pent) : List Byte := tobe32 h.a ++ tobe32 h.b ++ tobe32 h.c ++ tobe32 h.d ++ tobe32 h.e

/-- `IV384` (R184). -/
def iv384 : Oct 64 :=
  ⟨0xcbbb9d5dc1059ed8, 0x629a292a367cd507, 0x9159015a3070dd17, 0x152fecd8f70e5939,
   0x67332667ffc00b31, 0x8eb44a8768581511, 0xdb0c2e0d64f98fa7, 0x47b5481dbefa4fa4⟩

/-- `Serialize(Hw)` of `S384` (R184): words 0 to 5; words 6 and 7 are dropped. -/
def serialize384 (h : Oct 64) : List Byte :=
  tobe64 h.a ++ tobe64 h.b ++ tobe64 h.c ++ tobe64 h.d ++ tobe64 h.e ++ tobe64 h.f

end Sys2Proof.Machine
end

