-- ==== Sys2Proof/Machine/Buffering.lean ====
section
/-! DEFINITION. The buffering engine and the padding state machine (40_hash_commands.md R90 to R97), written once over a
`Family`, and the family of each `ALG`. These are internal operations of the engine: none has an opcode (R83). -/

namespace Sys2Proof.Machine

/-- `IV` of each `ALG` (R120, R140, R181, R183, R184). -/
def ivOf : Alg → Chain
  | .f128 => .f128 iv128
  | .f512 => .f512 iv512
  | .s1 => .s1 ivS1
  | .s256 => .s256 iv256
  | .s384 => .s384 iv384

/-- `Compress` of the chaining state's own `ALG` (R126, R148, R182, R183; `S384` uses `F512`'s, R184). -/
def compressChain (h : Chain) (blk : List Byte) : Chain :=
  match h with
  | .f128 v => .f128 (compress128 v blk)
  | .f512 v => .f512 (compress512 v blk)
  | .s1 v => .s1 (compressS1 v blk)
  | .s256 v => .s256 (compress256 v blk)
  | .s384 v => .s384 (compress512 v blk)

/-- `LenField` of each `ALG` (R127, R149, R180, R184). -/
def lenFieldOf (a : Alg) (l : Word64) : List Byte :=
  match a with
  | .f128 => lenField128 l
  | .f512 => lenField512 l
  | .s1 => lenFieldBe64 l
  | .s256 => lenFieldBe64 l
  | .s384 => lenField512 l

/-- `Serialize` of the chaining state's own `ALG` (R128, R150, R180, R184). -/
def serializeChain : Chain → List Byte
  | .f128 v => serialize128 v
  | .f512 v => serialize512 v
  | .s1 v => serializeS1 v
  | .s256 v => serialize256 v
  | .s384 v => serialize384 v

/-- The family of each `ALG` (R90). -/
def familyOf (a : Alg) : Family Chain :=
  { blockSize := a.blockSize
    lenFieldSize := a.lenFieldSize
    iv := ivOf a
    compress := compressChain
    lenField := lenFieldOf a
    serialize := serializeChain }

/-- `InitCtx(X)` (R92): `BUF` is not written. -/
def initCtx {χ : Type} (fam : Family χ) (x : HashCtx χ) : HashCtx χ := { x with h := fam.iv, count := 0, fill := 0 }

/-- `PushByte(X, v)` (R96): one padding byte, compressing when it fills the block; the counter is not advanced. -/
def pushByte {χ : Type} (fam : Family χ) (x : HashCtx χ) (v : Byte) : HashCtx χ :=
  let buf := x.buf.set x.fill v
  if x.fill + 1 = fam.blockSize then { x with h := fam.compress x.h buf, buf := buf, fill := 0 }
  else { x with buf := buf, fill := x.fill + 1 }

/-- The loop of `AbsorbBytes` (R94), at most `fuel` passes: while the rest of the input fills the block, copy just
enough bytes, compress, empty the block; then buffer what is left. -/
def absorbLoop {χ : Type} (fam : Family χ) : Nat → HashCtx χ → List Byte → HashCtx χ
  | 0, x, _ => x
  | fuel + 1, x, s =>
    if fam.blockSize ≤ x.fill + s.length then
      let k := fam.blockSize - x.fill
      let buf := splice x.buf x.fill (s.take k)
      absorbLoop fam fuel { x with h := fam.compress x.h buf, buf := buf, fill := 0 } (s.drop k)
    else { x with buf := splice x.buf x.fill s, fill := x.fill + s.length }

/-- `AbsorbBytes(X, s)` (R93, R94): the counter advances once by `8 × |s|` modulo `2^64`, then the loop, which runs
`(FILL + |s|) / B` times and once more to buffer the rest. -/
def absorbBytes {χ : Type} (fam : Family χ) (x : HashCtx χ) (s : List Byte) : HashCtx χ :=
  absorbLoop fam ((x.fill + s.length) / fam.blockSize + 1) { x with count := x.count + BitVec.ofNat 64 (8 * s.length) } s

/-- `PAD_ZERO` (R97): zero bytes until `FILL = B - LENF`, at most `fuel` of them (R102: `B - 1` are enough). -/
def padZero {χ : Type} (fam : Family χ) : Nat → HashCtx χ → HashCtx χ
  | 0, x => x
  | fuel + 1, x => if x.fill = fam.blockSize - fam.lenFieldSize then x else padZero fam fuel (pushByte fam x 0x00)

/-- `PAD_MARK`, `PAD_ZERO`, `PAD_LEN` of `Finalize(X)` (R97), the length latched before any padding. -/
def padCtx {χ : Type} (fam : Family χ) (x : HashCtx χ) : HashCtx χ :=
  (fam.lenField x.count).foldl (pushByte fam) (padZero fam fam.blockSize (pushByte fam x 0x80))

/-- `Finalize(X)` (R97): pad, then `EMIT` the digest. -/
def finalize {χ : Type} (fam : Family χ) (x : HashCtx χ) : List Byte := fam.serialize (padCtx fam x).h

end Sys2Proof.Machine
end

