-- ==== Sys2Proof/Machine/State.lean ====
section
/-! DEFINITION. The whole state as plain data (10_state.md; 20_memory.md R50; 30_encoding.md R70), the reasons a step can
stop, and the state after reset (10_state.md R35, 70_reset_and_hazards.md R220). -/

namespace Sys2Proof.Machine

/-- Host memory (R50): the bytes that differ from `Config.unwrittenByte`, by strictly rising address (`Memory.wf`). -/
abbrev Memory := List Host.Cell

/-- The lifecycle of the host context (R25). -/
inductive Phase where
  /-- No `INIT` has run since reset. -/
  | uninit
  /-- After `INIT`: `ABSORB` and `FINAL` are defined. -/
  | active
  /-- After `FINAL`, until the next `INIT`. -/
  | finalized
deriving DecidableEq, Repr

/-- The HMAC scratch (R31). It "holds a value only while an HMAC command runs"; between commands these fields are free
values that no command reads. -/
structure Scratch where
  /-- `SCR.H`, `SCR.COUNT`, `SCR.BUF`, `SCR.FILL`. -/
  ctx : HashCtx Chain
  /-- `KB[0..B-1]`, the masked key block. -/
  kb : List Byte
  /-- `IDIG[0..OUT-1]`, the intermediate digest. -/
  idig : List Byte
deriving DecidableEq, Repr

/-- One move of the outside world, taken at a command boundary (R58, R70, R212, R220). -/
inductive HostInput where
  /-- The host presents a command packet, by value (R61, R70, R71). -/
  | packet (ws : List Word64)
  /-- The input `scratch_avail` takes this level (R161). -/
  | setScratch (avail : Bool)
  /-- The host writes one byte of its memory between commands (R212, last row). -/
  | store (addr : Nat) (v : Byte)
  /-- The platform resets the engine between commands (R220). -/
  | reset
  /-- The host presents a packet and the platform resets the engine before its response (R221, U11). -/
  | resetDuring (ws : List Word64)
deriving DecidableEq, Repr

/-- The machine: the engine, host memory, and what the outside world does next. -/
structure State where
  /-- The instance's open parameters (R9); `ALG` itself is `State.alg`. -/
  params : Params
  /-- `CTX.H`, `CTX.COUNT`, `CTX.BUF`, `CTX.FILL` (R20). -/
  ctx : HashCtx Chain
  /-- `CTX.PHASE` (R25). -/
  phase : Phase
  /-- `SCR`, `KB`, `IDIG` (R31). -/
  scr : Scratch
  /-- Host memory (R50). -/
  mem : Memory
  /-- The input `scratch_avail` (R9, R161), sampled by `HMAC` in `H_CHECK`. -/
  scratchAvail : Bool
  /-- The response words `RSP0, ..` of the last command completed since reset; empty when there is none (R77, R35). -/
  rsp : List Word64
  /-- What the outside world does from here on, the next move first (the command port of R70 and the other inputs). -/
  host : List HostInput
  /-- The MODEL's own: how many draws of free values have been made (notes/assumptions/4.md). -/
  draws : Nat
deriving DecidableEq, Repr

/-- The instance's `ALG` (R9), carried by its chaining state; no step changes it. -/
def State.alg (s : State) : Alg := s.ctx.h.alg

/-- Why a step could fault: never. "The engine raises no exception, trap or fault of any kind" (R200), and
93_implementation_defined.md part 1 has no `fault` and no `stuck` row; so the type has no constructor. -/
inductive Fault where
deriving DecidableEq, Repr

/-- Why the model gives a situation no meaning: the spec's `refuse` (R13, R204). Every one is SAFE: the hardware does
something the spec does not say, and the model answers no state, so nothing can be proved of it. -/
inductive Refusal where
  /-- `exec` has no meaning yet for the instruction of this mnemonic. Safe. No arm raises it. -/
  | notModelled (mnemonic : String)
  /-- Raised by `step` on a packet that R79 calls reserved (U10). Safe. -/
  | reservedPacket
  /-- Raised by `step` on a word sequence that is not as long as its format (R71, R73): the spec knows no such packet.
  Safe. -/
  | packetLength
  /-- Raised by `ABSORB` and `FINAL` in phase `UNINIT` (R204, U1). Safe. -/
  | contextUninit
  /-- Raised by `ABSORB` and `FINAL` in phase `FINALIZED` (R99, R204, U2). Safe. -/
  | contextFinalized
  /-- Raised by `ABSORB`, `FINAL` and `HMAC` on an operand range that wraps past `2^AW` or touches an address outside
  `MemValid` (R55, R204, U7). Safe. -/
  | operandRange
  /-- Raised by `ABSORB` and `HMAC` on a message of `2^64` bits or more (R22, R171, R204, U5). Safe. -/
  | messageTooLong
  /-- Raised by `step` on a host write to an address that is no memory (R50, R55). Safe. -/
  | hostAddress
deriving DecidableEq, Repr

/-- The chaining state every word of which is zero. -/
def Chain.zero (a : Alg) : Chain := Chain.ofWords a fun _ => 0

/-- The hash context the model names for reset, where R35 gives no value: zeros.
DESIGN CHOICE (notes/assumptions/1.md), unsafe; no defined command reads them (R36, U14). -/
def HashCtx.atReset (a : Alg) : HashCtx Chain :=
  { h := Chain.zero a, count := 0, buf := List.replicate a.blockSize 0, fill := 0 }

/-- The HMAC scratch the model names for reset, where R35 gives no value: zeros.
DESIGN CHOICE (notes/assumptions/1.md), unsafe; no command reads them (R162). -/
def Scratch.atReset (a : Alg) : Scratch :=
  { ctx := HashCtx.atReset a, kb := List.replicate a.blockSize 0, idig := List.replicate a.outSize 0 }

/-- An instance right after power-on reset (R35, R220): `PHASE = UNINIT`, the command port idle, nothing written to host
memory yet; the fields R35 leaves "unspecified" as notes/assumptions/1.md names them. -/
def State.resetOf (a : Alg) (p : Params) : State :=
  { params := p
    ctx := HashCtx.atReset a
    phase := .uninit
    scr := Scratch.atReset a
    mem := []
    scratchAvail := true
    rsp := []
    host := []
    draws := 0 }

/-- The machine right after reset: the `F128` instance with the default parameters of R9. Which instance it is, is a
DESIGN CHOICE (notes/assumptions/2.md): the spec takes `ALG` as an argument, and `State.resetOf` has every instance. -/
def State.reset : State := State.resetOf .f128 (Params.default .f128)

end Sys2Proof.Machine
end

