-- ==== Sys2Proof/Machine/Flags.lean ====
section
/-! DEFINITION. The engine has no flags (10_state.md R28: "no condition codes, carry, overflow or zero flag, and no sticky
status register"). What stands here is its only status, the response word (30_encoding.md R77, R78). -/

namespace Sys2Proof.Machine

/-- The two status codes (R78, R201). -/
inductive Status where
  /-- The command did what its rule says. -/
  | ok
  /-- `HMAC` only: the scratch was not granted. -/
  | allocFail
deriving DecidableEq, Repr

/-- The code of a status (R78). -/
def statusCode : Status → Byte
  | .ok => 0x00
  | .allocFail => 0x01

/-- `RSP0` (R77): the status code in bits 7 to 0, zeros above. -/
def statusWord (c : Status) : Word64 := (statusCode c).setWidth 64

end Sys2Proof.Machine
end

