-- ==== Sys2Proof/Machine/Ops.lean ====
section
/-! DEFINITION. The named operations over host memory (20_memory.md), over the response and over the context. There is no
operation that takes an exception and none that returns from one: the engine has neither (60_exceptions.md R200, R206,
R207). The one abnormal outcome is a response, `State.respond .allocFail`. -/

namespace Sys2Proof

/-- `MemValid(a)` (R9, D5), false at and above `2^AW` (R50). -/
def Params.memValid (p : Params) (a : Nat) : Bool :=
  decide (a < 2 ^ p.aw) && p.holes.all fun r => !(decide (r.lo ≤ a) && decide (a < r.hi))

/-- The operand `(addr, n)` is valid (R55): empty, or inside the address space and clear of every hole. -/
def Params.rangeOk (p : Params) (addr n : Nat) : Bool :=
  decide (n = 0) ||
    (decide (addr + n ≤ 2 ^ p.aw) &&
      p.holes.all fun r => decide (r.hi ≤ r.lo) || decide (r.hi ≤ addr) || decide (addr + n ≤ r.lo))

namespace Machine

/-- One single-byte read (R53, R56): it has no side effect. -/
def Memory.get : Memory → Nat → Byte
  | [], _ => Config.unwrittenByte
  | (k, v) :: m, a => if k = a then v else Memory.get m a

/-- One single-byte write (R53), keeping the canonical form. -/
def Memory.put : Memory → Nat → Byte → Memory
  | [], a, b => if b = Config.unwrittenByte then [] else [(a, b)]
  | (k, v) :: m, a, b =>
    if a < k then (if b = Config.unwrittenByte then (k, v) :: m else (a, b) :: (k, v) :: m)
    else if a = k then (if b = Config.unwrittenByte then m else (a, b) :: m)
    else (k, v) :: Memory.put m a b

/-- Addresses strictly rising from `lo` on, and no byte equal to what an unlisted address reads as. -/
def Memory.wfFrom : Nat → Memory → Bool
  | _, [] => true
  | lo, (k, v) :: m => decide (lo ≤ k) && decide (v ≠ Config.unwrittenByte) && Memory.wfFrom (k + 1) m

/-- The canonical form of host memory. -/
def Memory.wf (m : Memory) : Bool := Memory.wfFrom 0 m

/-- `MemRead(addr, n)` (R13, R53): `n` single-byte reads in ascending order, lowest address first. -/
def Memory.readBytes (m : Memory) : Nat → Nat → List Byte
  | _, 0 => []
  | addr, n + 1 => Memory.get m addr :: Memory.readBytes m (addr + 1) n

/-- `MemWrite(addr, |bs|, bs)` (R13, R53): single-byte writes in ascending order. -/
def Memory.writeBytes : Memory → Nat → List Byte → Memory
  | m, _, [] => m
  | m, addr, b :: bs => Memory.writeBytes (Memory.put m addr b) (addr + 1) bs

/-- The command ends with this status as its only response word (R13 `return`, R77). -/
def State.respond (s : State) (c : Status) : State := { s with rsp := [statusWord c] }

/-- A context that "holds no value" (R99, R31): every field of its shape free, drawn as draw number `d`; the fill cursor
inside the buffer (R20). -/
def spentCtx (a : Alg) (d : Nat) : HashCtx Chain :=
  { h := Chain.ofWords a (Config.freeWord d)
    count := Config.freeWord d 8
    buf := (List.range a.blockSize).map (Config.freeByte d)
    fill := (Config.freeWord d 9).toNat % a.blockSize }

/-- A scratch that "holds no value" (R31, R162), drawn as draw number `d`. -/
def spentScratch (a : Alg) (d : Nat) : Scratch :=
  { ctx := spentCtx a d
    kb := (List.range a.blockSize).map fun i => Config.freeByte d (a.blockSize + i)
    idig := (List.range a.outSize).map fun i => Config.freeByte d (2 * a.blockSize + i) }

/-- The refusal of a hash command outside phase `ACTIVE` (R25, R204), none inside it. -/
def phaseRefusal : Phase → Option Refusal
  | .uninit => some .contextUninit
  | .active => none
  | .finalized => some .contextFinalized

end Machine

end Sys2Proof
end

