-- ==== Sys2Proof/Machine/Descriptor.lean ====
section
/-! DEFINITION. `DESC` (40_hash_commands.md R91; 10_state.md R30). -/

namespace Sys2Proof.Machine

/-- The four response words of `DESC` (R77, R91): `OK`, `CTX_SIZE`, `B`, `OUT`. -/
def descResponse (p : Params) (a : Alg) : List Word64 :=
  [statusWord .ok, p.ctxSize, BitVec.ofNat 64 a.blockSize, BitVec.ofNat 64 a.outSize]

/-- `DESC` (R91): the sizes of the instance; no state, no host memory. -/
def execDesc (s : State) : Host.Outcome State Fault Refusal := .next { s with rsp := descResponse s.params s.alg }

end Sys2Proof.Machine
end

