-- ==== Sys2Proof/Machine/HashCommands.lean ====
section
/-! DEFINITION. `INIT`, `ABSORB`, `FINAL` (40_hash_commands.md R92, R95, R98). -/

namespace Sys2Proof.Machine

/-- `INIT` (R92): defined in every phase. -/
def execInit (s : State) : Host.Outcome State Fault Refusal :=
  .next (State.respond { s with ctx := initCtx (familyOf s.alg) s.ctx, phase := .active } .ok)

/-- `ABSORB addr, len` (R95). Outside phase `ACTIVE` (R204), on an invalid operand (R55) and on a message that would
reach `2^64` bits (R22, U5) the spec says: refuse. -/
def execAbsorb (addr len : Word64) (s : State) : Host.Outcome State Fault Refusal :=
  match phaseRefusal s.phase with
  | some r => .refused r
  | none =>
    if s.params.rangeOk addr.toNat len.toNat then
      if s.ctx.count.toNat + 8 * len.toNat < 2 ^ 64 then
        let bytes := Memory.readBytes s.mem addr.toNat len.toNat
        .next (State.respond { s with ctx := absorbBytes (familyOf s.alg) s.ctx bytes } .ok)
      else .refused .messageTooLong
    else .refused .operandRange

/-- `FINAL out` (R98): the digest is written at `out`, and the context is spent: its fields become free values (R99). -/
def execFinal (out : Word64) (s : State) : Host.Outcome State Fault Refusal :=
  match phaseRefusal s.phase with
  | some r => .refused r
  | none =>
    if s.params.rangeOk out.toNat s.alg.outSize then
      let digest := finalize (familyOf s.alg) s.ctx
      .next (State.respond
        { s with
          mem := Memory.writeBytes s.mem out.toNat digest
          phase := .finalized
          ctx := spentCtx s.alg s.draws
          draws := s.draws + 1 } .ok)
    else .refused .operandRange

end Sys2Proof.Machine
end

