-- ==== Sys2Proof/Machine/Hmac.lean ====
section
/-! DEFINITION. `HMAC` (43_hmac.md R160 to R171): the key block, the double-hash controller, the command. -/

namespace Sys2Proof.Machine

/-- `MaskKey(key, klen, p)` (R164, R165): the first `min(klen, B)` key bytes xored with the mask byte, the rest of the
block the mask byte itself. Key bytes from `B` on are not read. -/
def maskKey (m : Memory) (b key klen : Nat) (p : Byte) : List Byte :=
  let n := min klen b
  (Memory.readBytes m key n).map (· ^^^ p) ++ List.replicate (b - n) p

/-- One hash cycle of the controller up to its `Finalize` (R163): `InitCtx`, then two `AbsorbBytes`. -/
def absorbTwo {χ : Type} (fam : Family χ) (x : HashCtx χ) (first second : List Byte) : HashCtx χ :=
  absorbBytes fam (absorbBytes fam (initCtx fam x) first) second

/-- `H_IKEY`, `H_OKEY` (R160): build the key block for mask byte `p` from host memory. -/
def hmacKeyStage (a : Alg) (m : Memory) (key klen : Nat) (p : Byte) (r : Scratch) : Scratch :=
  { r with kb := maskKey m a.blockSize key klen p }

/-- `H_INNER` (R160): hash the key block and the message bytes; the digest stays in `IDIG`. -/
def hmacInnerStage (a : Alg) (msg : List Byte) (r : Scratch) : Scratch :=
  let x := absorbTwo (familyOf a) r.ctx r.kb msg
  { r with ctx := padCtx (familyOf a) x, idig := finalize (familyOf a) x }

/-- `H_OUTER` (R160): hash the key block and the intermediate digest; the digest is the tag. -/
def hmacOuterStage (a : Alg) (r : Scratch) : List Byte :=
  finalize (familyOf a) (absorbTwo (familyOf a) r.ctx r.kb r.idig)

/-- `H_IKEY → H_INNER → H_OKEY → H_OUTER` (R160, R163), in this order; the tag that `H_WRITE` writes. -/
def hmacTag (a : Alg) (m : Memory) (key klen msg mlen : Nat) (r : Scratch) : List Byte :=
  let r1 := hmacKeyStage a m key klen 0x36 r
  let r2 := hmacInnerStage a (Memory.readBytes m msg mlen) r1
  let r3 := hmacKeyStage a m key klen 0x5c r2
  hmacOuterStage a r3

/-- `HMAC out, key, klen, msg, mlen` (R160). `H_CHECK` comes first (R161, R203): without the scratch the command answers
`ALLOC_FAIL` and does nothing else. With it, an invalid operand (R55) and a message too long (R171) are refused; else
the tag is written at `out` and the scratch is released: it holds no value (R162). The host context is not touched. -/
def execHmac (out key klen msg mlen : Word64) (s : State) : Host.Outcome State Fault Refusal :=
  if s.scratchAvail then
    if s.params.rangeOk key.toNat klen.toNat && s.params.rangeOk msg.toNat mlen.toNat
        && s.params.rangeOk out.toNat s.alg.outSize then
      if s.alg.blockSize + mlen.toNat < 2 ^ 61 then
        let tag := hmacTag s.alg s.mem key.toNat klen.toNat msg.toNat mlen.toNat s.scr
        .next (State.respond
          { s with
            mem := Memory.writeBytes s.mem out.toNat tag
            scr := spentScratch s.alg s.draws
            draws := s.draws + 1 } .ok)
      else .refused .messageTooLong
    else .refused .operandRange
  else .next (State.respond s .allocFail)

end Sys2Proof.Machine
end

