-- ==== Sys2Proof/Syntax.lean ====
section
/-! DEFINITION. The five commands of the engine, one constructor per row of spec/opcode_table.json (30_encoding.md R73,
R74). The `context` and `descriptor` arguments of the source are implicit (R73): one instance has one of each. -/

namespace Sys2Proof

/-- A decoded command with its operands in packet order (R73). Address operands and length operands are whole packet
words; that an address fits `AW` bits is `Instr.wf` (R75). -/
inductive Instr where
  /-- `INIT`, opcode 0x01: start a digest (R92). -/
  | init
  /-- `ABSORB addr, len`, opcode 0x02: feed `len` message bytes at `addr` (R95). -/
  | absorb (addr len : Word64)
  /-- `FINAL out`, opcode 0x03: pad and write the digest at `out` (R98). -/
  | final (out : Word64)
  /-- `HMAC out, key, klen, msg, mlen`, opcode 0x04: write the keyed tag at `out` (R160). -/
  | hmac (out key klen msg mlen : Word64)
  /-- `DESC`, opcode 0x05: read the three sizes (R91). -/
  | desc
deriving DecidableEq, Repr

/-- The pseudo-instruction `HASH out, addr, len` is these three commands in this order (R82). -/
def Instr.hashPseudo (out addr len : Word64) : List Instr := [.init, .absorb addr len, .final out]

end Sys2Proof
end

