-- ==== Sys2Proof/Machine/Dispatch.lean ====
section
/-! DEFINITION. The dispatcher: one arm per command (30_encoding.md R74). -/

namespace Sys2Proof.Machine

/-- What a command does to the machine. -/
def exec (i : Instr) (s : State) : Host.Outcome State Fault Refusal :=
  match i with
  | .init => Sys2Proof.Machine.execInit s
  | .absorb addr len => Sys2Proof.Machine.execAbsorb addr len s
  | .final out => Sys2Proof.Machine.execFinal out s
  | .hmac out key klen msg mlen => Sys2Proof.Machine.execHmac out key klen msg mlen s
  | .desc => Sys2Proof.Machine.execDesc s

end Sys2Proof.Machine
end

