-- ==== Sys2Proof/WellFormed.lean ====
section
/-! DEFINITION. Well-formed commands: every address operand fits the low `AW` bits of its word (30_encoding.md R75).
Length operands are unrestricted (R75). -/

namespace Sys2Proof

/-- Bits `AW` and above of an address word are zero (R75). -/
def addrFits (aw : Nat) (a : Word64) : Bool := decide (a.toNat < 2 ^ aw)

/-- The command is one a packet can carry on an instance with address width `aw` (R75). -/
def Instr.wf (aw : Nat) : Instr → Bool
  | .init => true
  | .absorb addr _ => addrFits aw addr
  | .final out => addrFits aw out
  | .hmac out key _ msg _ => addrFits aw out && addrFits aw key && addrFits aw msg
  | .desc => true

end Sys2Proof
end

