-- ==== Sys2Proof/Decode.lean ====
section
/-! DEFINITION. The decoder, total on every word sequence and rejecting by name, and the encoder, both from the encoding
tables of 30_encoding.md (R71 to R75, R79); packets as bytes (R80); the assembler's spelling (R81). -/

namespace Sys2Proof

/-- Why a word sequence is no command packet. The first three are R79's "reserved"; the last is a sequence whose length
is not the fixed number of words of its format (R71, R73). -/
inductive Reserved where
  /-- The opcode is `0x00` or in `0x06 .. 0xFF` (R79). -/
  | opcode
  /-- `W0[63:8]` is not zero (R72, R79). -/
  | rsvdBits
  /-- An address operand has a bit set at or above `AW` (R75, R79). -/
  | addressBits
  /-- Not as many words as the format has (R71, R73). -/
  | wordCount
deriving DecidableEq, Repr

/-- The decoder's answer. -/
inductive Decoded where
  /-- The packet is this command. -/
  | command (i : Instr)
  /-- The packet is reserved, for this reason. -/
  | reserved (why : Reserved)
deriving DecidableEq, Repr

/-- `W0[7:0]` (R72). -/
def opcodeField (w0 : Word64) : Byte := w0.extractLsb' 0 8

/-- `W0[63:8]` (R72). -/
def rsvdField (w0 : Word64) : BitVec 56 := w0.extractLsb' 8 56

/-- How many words follow `W0` for each opcode (R73, R74; the "takes 0, 2, 1, 5, 0 further words" of V52). -/
def operandCount (op : Byte) : Option Nat :=
  match op.toNat with
  | 1 => some 0
  | 2 => some 2
  | 3 => some 1
  | 4 => some 5
  | 5 => some 0
  | _ => none

/-- A command whose address operands fit, else the packet is reserved (R75, R79). -/
def Instr.checked (aw : Nat) (i : Instr) : Decoded := if i.wf aw then .command i else .reserved .addressBits

/-- The command of opcode `op` with the operand words `ops` (R73, R74): the format fixes how many there are. -/
def decodeOperands (aw op : Nat) (ops : List Word64) : Decoded :=
  match op with
  | 1 =>
    match ops with
    | [] => Instr.checked aw .init
    | _ => .reserved .wordCount
  | 2 =>
    match ops with
    | [addr, len] => Instr.checked aw (.absorb addr len)
    | _ => .reserved .wordCount
  | 3 =>
    match ops with
    | [out] => Instr.checked aw (.final out)
    | _ => .reserved .wordCount
  | 4 =>
    match ops with
    | [out, key, klen, msg, mlen] => Instr.checked aw (.hmac out key klen msg mlen)
    | _ => .reserved .wordCount
  | 5 =>
    match ops with
    | [] => Instr.checked aw .desc
    | _ => .reserved .wordCount
  | _ => .reserved .opcode

/-- Decode a packet on an instance with address width `aw` (R71 to R75, R79): `W0` first, then the operands of its
format in order. -/
def decode (aw : Nat) : List Word64 → Decoded
  | [] => .reserved .wordCount
  | w0 :: ops =>
    if rsvdField w0 = 0 then decodeOperands aw (opcodeField w0).toNat ops else .reserved .rsvdBits

/-- The words of a command (R72 to R74): the opcode in `W0[7:0]`, zeros above it, then one operand a word. -/
def encode : Instr → List Word64
  | .init => [0x01]
  | .absorb addr len => [0x02, addr, len]
  | .final out => [0x03, out]
  | .hmac out key klen msg mlen => [0x04, out, key, klen, msg, mlen]
  | .desc => [0x05]

/-- A word as its eight bytes, least significant first (R80). -/
def wordBytes (w : Word64) : List Byte := (List.range 8).map fun k => w.extractLsb' (8 * k) 8

/-- A packet or a response written as bytes (R80). -/
def packetBytes (ws : List Word64) : List Byte := ws.flatMap wordBytes

/-- Read a packet written as bytes back into words (R80); bytes that do not fill a word are dropped. -/
def packetOfBytes : List Byte → List Word64
  | b0 :: b1 :: b2 :: b3 :: b4 :: b5 :: b6 :: b7 :: rest =>
    (b7 ++ b6 ++ b5 ++ b4 ++ b3 ++ b2 ++ b1 ++ b0 : BitVec (8 + 8 + 8 + 8 + 8 + 8 + 8 + 8)) :: packetOfBytes rest
  | _ => []

/-- The packet whose words, `W0` least significant, are the bits of `bits`: `W0`, and after it as many words as the
format of `W0` has (R71). Where `W0` is reserved, `W0` alone. -/
def packetOfBits (bits : Nat) : List Word64 :=
  let w0 := BitVec.ofNat 64 bits
  w0 :: (List.range ((operandCount (opcodeField w0)).getD 0)).map fun k => BitVec.ofNat 64 (bits >>> (64 * (k + 1)))

/-- The command the decoder reads from an opcode-table word of `nbits` bits, operand words that the table gives no bits
being zero; on the default address width 64 (R9). -/
def decodeTableWord (nbits w : Nat) : Option Instr :=
  match decode 64 (packetOfBits (w % 2 ^ nbits)) with
  | .command i => some i
  | .reserved _ => none

/-- A command as the assembler spells it, operands in decimal (R81). -/
def Instr.asm : Instr → String
  | .init => "INIT"
  | .absorb addr len => "ABSORB " ++ toString addr.toNat ++ ", " ++ toString len.toNat
  | .final out => "FINAL " ++ toString out.toNat
  | .hmac out key klen msg mlen =>
    "HMAC " ++ toString out.toNat ++ ", " ++ toString key.toNat ++ ", " ++ toString klen.toNat ++ ", "
      ++ toString msg.toNat ++ ", " ++ toString mlen.toNat
  | .desc => "DESC"

end Sys2Proof
end

