-- ==== Sys2Proof/Machine/HostInterface.lean ====
section
/-! DEFINITION. What the outside world's moves do to the machine (30_encoding.md R70; 60_exceptions.md R212;
70_reset_and_hazards.md R220, R221). `Step.lean` only calls these. -/

namespace Sys2Proof.Machine

/-- The refusal of a packet the decoder rejects (R71, R79). -/
def packetRefusal : Reserved → Refusal
  | .opcode => .reservedPacket
  | .rsvdBits => .reservedPacket
  | .addressBits => .reservedPacket
  | .wordCount => .packetLength

/-- The host writes one byte of its memory (R212), which must be an address that is memory (R50, R55). -/
def hostStore (addr : Nat) (v : Byte) (s : State) : Host.Outcome State Fault Refusal :=
  if s.params.memValid addr then .next { s with mem := Memory.put s.mem addr v } else .refused .hostAddress

/-- The effect of a reset of a running engine (R35, R220): `PHASE` is `UNINIT`, no response is pending, and the context and
the scratch hold no value: they become free values (notes/assumptions/4.md). Host memory, the input `scratch_avail` and
the outside world are not the engine's. -/
def engineReset (s : State) : State :=
  { s with
    ctx := spentCtx s.alg s.draws
    phase := .uninit
    scr := spentScratch s.alg (s.draws + 1)
    rsp := []
    draws := s.draws + 2 }

/-- Where a command writes its `OUT` result bytes, if it has a writing stage (R51). -/
def writeTarget : Instr → Option Word64
  | .init => none
  | .absorb _ _ => none
  | .final out => some out
  | .hmac out _ _ _ _ => some out
  | .desc => none

/-- Bytes that hold no value afterwards (R221, U11): `n` free bytes at `addr`, drawn as draw number `s.draws`. -/
def scrambleBytes (addr n : Nat) (s : State) : State :=
  { s with
    mem := Memory.writeBytes s.mem addr ((List.range n).map (Config.freeByte s.draws))
    draws := s.draws + 1 }

/-- A command cut off by reset (R221): `t` is the state the command would have ended in. No response is delivered, the
engine is as after reset, and if the command reached a writing stage (it answered `OK`; an `HMAC` that answers
`ALLOC_FAIL` never does) the `OUT` bytes at its target hold no value. -/
def abandon (i : Instr) (t : State) : State :=
  match writeTarget i with
  | some out => engineReset (if t.rsp = [statusWord .ok] then scrambleBytes out.toNat t.alg.outSize t else t)
  | none => engineReset t

end Sys2Proof.Machine
end

