-- ==== Sys2Proof/Machine/Step.lean ====
section
/-! DEFINITION. One step: the outside world's next move, and with a packet the whole command (00_scope.md R6: a command is
one atomic transition; 30_encoding.md R70). -/

namespace Sys2Proof.Machine

/-- Decode a packet and run it (R70, R79). -/
def runPacket (ws : List Word64) (s : State) : Host.Outcome State Fault Refusal :=
  match decode s.params.aw ws with
  | .command i => exec i s
  | .reserved why => .refused (packetRefusal why)

/-- Decode a packet and cut it off by reset (R221). A command that is refused stays refused. -/
def runAndReset (ws : List Word64) (s : State) : Host.Outcome State Fault Refusal :=
  match decode s.params.aw ws with
  | .command i =>
    match exec i s with
    | .next t => .next (abandon i t)
    | .fault r => .fault r
    | .refused r => .refused r
  | .reserved why => .refused (packetRefusal why)

/-- One step of the machine: the next move of the outside world is taken. With no move the engine is idle and keeps its
state (R211, R212). -/
def step (s : State) : Host.Outcome State Fault Refusal :=
  match s.host with
  | [] => .next s
  | .packet ws :: rest => runPacket ws { s with host := rest }
  | .setScratch avail :: rest => .next { s with host := rest, scratchAvail := avail }
  | .store addr v :: rest => hostStore addr v { s with host := rest }
  | .reset :: rest => .next (engineReset { s with host := rest })
  | .resetDuring ws :: rest => runAndReset ws { s with host := rest }

/-- `s` with the packet of an opcode-table word presented at the command port as the very next move
(notes/assumptions/7.md: a program is the packets the host presents). -/
def State.withFetchWord (s : State) (nbits w : Nat) : State :=
  { s with host := .packet (packetOfBits (w % 2 ^ nbits)) :: s.host }

end Sys2Proof.Machine
end

