-- ==== Sys2Proof/Machine/ClosedForm.lean ====
section
/-! DEFINITION. What the commands compute, in closed form (40_hash_commands.md R100; 43_hmac.md R167), and two families
that watch the engine instead of hashing: one that counts compressions (R101, R168) and one that records the blocks
compressed. Claims are stated in these terms; the machine does not use them. -/

namespace Sys2Proof.Machine

/-- The full blocks `s[0..b), s[b..2b), …` of a byte sequence (R37, R100); a last partial block is not one of them. -/
def blocksOf (b : Nat) (s : List Byte) : List (List Byte) :=
  (List.range (s.length / b)).map fun j => (s.drop (j * b)).take b

/-- `z = (B - LENF - 1 - n) mod B`, taken in `[0, B)` (R100). -/
def zeroCount {χ : Type} (fam : Family χ) (n : Nat) : Nat :=
  (2 * fam.blockSize - fam.lenFieldSize - 1 - n % fam.blockSize) % fam.blockSize

/-- The bytes padding appends to a message of `n` bytes (R97, R100). -/
def padding {χ : Type} (fam : Family χ) (n : Nat) : List Byte :=
  [0x80] ++ List.replicate (zeroCount fam n) 0x00 ++ fam.lenField (BitVec.ofNat 64 (8 * n))

/-- `V_N` for the first `N` full blocks of a byte sequence (R100). -/
def chainOver {χ : Type} (fam : Family χ) (s : List Byte) : χ :=
  (blocksOf fam.blockSize s).foldl fam.compress fam.iv

/-- `Hash(m)` (R100). -/
def hashOf {χ : Type} (fam : Family χ) (m : List Byte) : List Byte :=
  fam.serialize (chainOver fam (m ++ padding fam m.length))

/-- `K0 ⊕ rep(p, B)` (R167): the first `B` key bytes, zero-extended to a block, each xored with `p`. -/
def paddedKey (b : Nat) (key : List Byte) (p : Byte) : List Byte :=
  (key.take b ++ List.replicate (b - key.length) 0x00).map (· ^^^ p)

/-- The tag of R167. -/
def tagOf {χ : Type} (fam : Family χ) (key m : List Byte) : List Byte :=
  hashOf fam (paddedKey fam.blockSize key 0x5c ++ hashOf fam (paddedKey fam.blockSize key 0x36 ++ m))

/-- The family of `ALG` with `Compress` replaced by adding one: its chaining state is the number of compressions since
`InitCtx` (R101). -/
def countingFamily (a : Alg) : Family Nat :=
  { blockSize := a.blockSize
    lenFieldSize := a.lenFieldSize
    iv := 0
    compress := fun n _ => n + 1
    lenField := lenFieldOf a
    serialize := fun _ => [] }

/-- The family of `ALG` with `Compress` replaced by writing the block down: its chaining state is the list of blocks
compressed since `InitCtx`, oldest first. -/
def recordingFamily (a : Alg) : Family (List (List Byte)) :=
  { blockSize := a.blockSize
    lenFieldSize := a.lenFieldSize
    iv := []
    compress := fun l blk => l ++ [blk]
    lenField := lenFieldOf a
    serialize := fun _ => [] }

end Sys2Proof.Machine
end

