-- ==== Sys2Proof/Safety.lean ====
section
/-! DEFINITION. The terms claims are made in: the machine's invariant, what a context stands for, and when two states agree
on everything that has a value. -/

namespace Sys2Proof.Machine

/-- A context of the shape `ALG` gives it (R20): the chaining words of `ALG`, a buffer of `B` bytes, the fill cursor inside
it (R24). -/
structure CtxShape (a : Alg) (x : HashCtx Chain) : Prop where
  alg : x.h.alg = a
  buf : x.buf.length = a.blockSize
  fill : x.fill < a.blockSize

/-- The machine's invariant: what holds at reset and every step keeps. -/
structure State.Inv (s : State) : Prop where
  /-- `1 ≤ AW ≤ 64` (R9). -/
  params : s.params.wf = true
  /-- Host memory is in canonical form. -/
  memCanonical : Memory.wf s.mem = true
  /-- Only addresses that are memory hold a byte (R50, R55). -/
  memValid : ∀ c ∈ s.mem, s.params.memValid c.1 = true
  /-- The host context has the shape of the instance (R20, R24). -/
  ctx : CtxShape s.alg s.ctx
  /-- The scratch has the shape of the instance (R31). -/
  scr : CtxShape s.alg s.scr.ctx
  /-- `KB` is one block (R31). -/
  kb : s.scr.kb.length = s.alg.blockSize
  /-- `IDIG` is one digest (R31). -/
  idig : s.scr.idig.length = s.alg.outSize
  /-- Whole bytes are counted, and `FILL = (COUNT / 8) mod B` while a digest is in progress (R24). -/
  fillOfCount : s.phase = .active →
    s.ctx.count.toNat % 8 = 0 ∧ s.ctx.fill = s.ctx.count.toNat / 8 % s.alg.blockSize

/-- The context stands for the message `m`: the four equations of R37, with the buffer one block long (R23). -/
structure Represents {χ : Type} (fam : Family χ) (x : HashCtx χ) (m : List Byte) : Prop where
  count : x.count = BitVec.ofNat 64 (8 * m.length)
  fill : x.fill = m.length % fam.blockSize
  buf : x.buf.take x.fill = m.drop (m.length / fam.blockSize * fam.blockSize)
  h : x.h = chainOver fam m
  size : x.buf.length = fam.blockSize

/-- Two contexts agree on what has a value while a digest is in progress: the buffer only below the fill cursor (R23). -/
structure SameDigest {χ : Type} (x y : HashCtx χ) : Prop where
  h : x.h = y.h
  count : x.count = y.count
  fill : x.fill = y.fill
  buf : x.buf.take x.fill = y.buf.take y.fill

/-- Two states agree on everything that has a value: the context only in phase `ACTIVE` (R25, R35, R99), the scratch not
at all (R31). -/
structure SameValues (s t : State) : Prop where
  params : s.params = t.params
  alg : s.alg = t.alg
  phase : s.phase = t.phase
  mem : s.mem = t.mem
  scratchAvail : s.scratchAvail = t.scratchAvail
  rsp : s.rsp = t.rsp
  host : s.host = t.host
  draws : s.draws = t.draws
  ctx : s.phase = .active → SameDigest s.ctx t.ctx

/-- Two outcomes agree: the same refusal, or next states that agree on everything that has a value. -/
def SameOutcome : Host.Outcome State Fault Refusal → Host.Outcome State Fault Refusal → Prop
  | .next s, .next t => SameValues s t
  | .refused r, .refused r' => r = r'
  | .fault _, .fault _ => True
  | _, _ => False

/-- The address lies in the `n` bytes at `addr`. -/
abbrev inBytes (addr n a : Nat) : Prop := addr ≤ a ∧ a < addr + n

/-- The operand `(addr, n)` is valid, in the words of R55: empty, or not past `2^AW` with every address `MemValid`. -/
def ValidOperand (p : Params) (addr n : Nat) : Prop :=
  n = 0 ∨ (addr + n ≤ 2 ^ p.aw ∧ ∀ i < n, p.memValid (addr + i) = true)

end Sys2Proof.Machine
end

