-- ==== Sys2Proof/Certificates/Slice0/Obligations.lean ====
section
/-! DEFINITION. The statements for the provers. Each docstring names the rule of spec/ it formalises. -/

open Sys2Proof Sys2Proof.Machine

/-! ### Reset, the moves of the outside world, the invariant -/

/-- 10_state.md R35 in part: after reset `PHASE = UNINIT`, the command port is idle, no response is pending and host memory
is as the model's log names it (notes/assumptions/3.md). Which instance `State.reset` is, is the model's choice
(notes/assumptions/2.md); its parameters have the defaults of R9. -/
def Obligations.PowerOnResetState : Prop :=
  (∀ (a : Alg) (p : Params),
    (State.resetOf a p).alg = a ∧ (State.resetOf a p).params = p ∧ (State.resetOf a p).phase = .uninit ∧
      (State.resetOf a p).rsp = [] ∧ (State.resetOf a p).host = [] ∧
      ∀ addr, Memory.get (State.resetOf a p).mem addr = Config.unwrittenByte) ∧
  (∃ a, State.reset = State.resetOf a (Params.default a)) ∧
  (Params.default .f128).ctxSize = 96 ∧ (Params.default .f512).ctxSize = 208 ∧
  ∀ a : Alg, (Params.default a).aw = 64 ∧ ∀ addr < 2 ^ 64, (Params.default a).memValid addr = true

/-- The invariant holds after reset of every instance with a legal address width (R9). -/
def Obligations.ResetMeetsInvariant : Prop :=
  ∀ (a : Alg) (p : Params), p.wf = true → (State.resetOf a p).Inv

/-- Every step keeps the invariant: host memory canonical and only where there is memory (R50, R55), `FILL` in `[0, B)`
and tied to `COUNT` while a digest is in progress (R24), every register of the instance's shape (R20, R31). -/
def Obligations.EveryStepKeepsInvariant : Prop :=
  ∀ s t : State, s.Inv → step s = .next t → t.Inv

/-- No step changes the instance: `ALG` and the parameters are fixed at elaboration (R8, R9). -/
def Obligations.NoStepChangesTheInstance : Prop :=
  ∀ s t : State, s.Inv → step s = .next t → t.alg = s.alg ∧ t.params = s.params

/-- 60_exceptions.md R200, R204: everything a command and a step can answer. `INIT` and `DESC` answer a next state in every
state; `ABSORB`, `FINAL`, `HMAC` a next state or one of their refusals named here; a step a next state, or, on a packet (cut
off by reset or not), the decoder's refusals or that of the command it decodes to, or, on a host write, that of its
address. Nothing answers a fault or "not modelled". The refusals of a packet of the wrong length and of a host write to an
address that is no memory are the model's choice (notes/assumptions/11.md, 8.md). -/
def Obligations.PossibleOutcomes : Prop :=
  (∀ s : State,
    (∃ t, exec .init s = .next t) ∧ (∃ t, exec .desc s = .next t) ∧
    (∀ addr len : Word64, (∃ t, exec (.absorb addr len) s = .next t) ∨
      ∃ r ∈ [Refusal.contextUninit, .contextFinalized, .operandRange, .messageTooLong],
        exec (.absorb addr len) s = .refused r) ∧
    (∀ out : Word64, (∃ t, exec (.final out) s = .next t) ∨
      ∃ r ∈ [Refusal.contextUninit, .contextFinalized, .operandRange], exec (.final out) s = .refused r) ∧
    ∀ out key klen msg mlen : Word64, (∃ t, exec (.hmac out key klen msg mlen) s = .next t) ∨
      ∃ r ∈ [Refusal.operandRange, .messageTooLong], exec (.hmac out key klen msg mlen) s = .refused r) ∧
  ∀ s : State, (∃ t, step s = .next t) ∨
    (∃ ws rest r, (s.host = .packet ws :: rest ∨ s.host = .resetDuring ws :: rest) ∧ step s = .refused r ∧
      ((∃ why, decode s.params.aw ws = .reserved why ∧ r ∈ [Refusal.reservedPacket, .packetLength]) ∨
        ∃ i, decode s.params.aw ws = .command i ∧ exec i { s with host := rest } = .refused r)) ∨
    ∃ addr v rest, s.host = .store addr v :: rest ∧ s.params.memValid addr = false ∧ step s = .refused .hostAddress

/-- 60_exceptions.md R212, last row, and R211: between commands the engine is idle and keeps its state. -/
def Obligations.IdleEngineKeepsState : Prop :=
  ∀ s : State, s.host = [] → step s = .next s

/-- A step runs the decoded command (R6, R70): with a packet presented that decodes to `i`, the step is `exec i` on the
state with the packet taken. -/
def Obligations.StepRunsDecodedCommand : Prop :=
  ∀ (s : State) (ws : List Word64) (rest : List HostInput) (i : Instr),
    s.host = .packet ws :: rest → decode s.params.aw ws = .command i →
      step s = exec i { s with host := rest }

/-- The packet of an opcode-table word is the next command to run, on an instance of the default address width
(notes/assumptions/7.md). -/
def Obligations.FetchWordRunsTheTableWord : Prop :=
  ∀ (s : State) (nbits w : Nat) (i : Instr),
    s.params.aw = 64 → decodeTableWord nbits w = some i → step (s.withFetchWord nbits w) = exec i s

/-- 70_reset_and_hazards.md R220 in part: reset between commands makes `PHASE = UNINIT` and the port idle, keeps the
instance and does not touch host memory; the input `scratch_avail` and the outside world's later moves are not the
engine's. Nothing is said of the fields R35 leaves unspecified: they are free values (notes/assumptions/4.md). -/
def Obligations.ResetBetweenCommands : Prop :=
  ∀ (s : State) (rest : List HostInput), s.host = .reset :: rest →
    ∃ t, step s = .next t ∧ t.phase = .uninit ∧ t.rsp = [] ∧ t.mem = s.mem ∧ t.alg = s.alg ∧ t.params = s.params ∧
      t.scratchAvail = s.scratchAvail ∧ t.host = rest

/-- 70_reset_and_hazards.md R221: reset while a command runs abandons it: no response, `PHASE = UNINIT`, and of host
memory only the `OUT` bytes at the target of a command that has a writing stage can change; nothing changes where there
is none (`INIT`, `ABSORB`, `DESC`, an `HMAC` without scratch). Nothing is said of the bytes at the target. -/
def Obligations.ResetDuringCommand : Prop :=
  ∀ (s u : State) (ws : List Word64) (rest : List HostInput) (i : Instr),
    s.Inv → s.host = .resetDuring ws :: rest → decode s.params.aw ws = .command i →
      exec i { s with host := rest } = .next u →
      ∃ t, step s = .next t ∧ t.phase = .uninit ∧ t.rsp = [] ∧ t.alg = s.alg ∧ t.params = s.params ∧
        t.scratchAvail = s.scratchAvail ∧ t.host = rest ∧
        (∀ out, writeTarget i = some out → ∀ addr, ¬ inBytes out.toNat s.alg.outSize addr →
          Memory.get t.mem addr = Memory.get s.mem addr) ∧
        (writeTarget i = none ∨ u.rsp = [statusWord .allocFail] → t.mem = s.mem)

/-- 60_exceptions.md R212, last row: between commands the host may write its memory; the byte is read back, every other
byte and the whole engine stay as they are. An address that is no memory is refused (the model's choice,
notes/assumptions/8.md). -/
def Obligations.HostWritesItsMemory : Prop :=
  ∀ (s : State) (addr : Nat) (v : Byte) (rest : List HostInput), s.Inv → s.host = .store addr v :: rest →
    (s.params.memValid addr = true → ∃ m, step s = .next { s with host := rest, mem := m } ∧
      Memory.get m addr = v ∧ ∀ c, c ≠ addr → Memory.get m c = Memory.get s.mem c) ∧
    (s.params.memValid addr = false → step s = .refused .hostAddress)

/-- Memories in canonical form that read the same everywhere are the same data. -/
def Obligations.EqualReadsEqualMemory : Prop :=
  ∀ m m' : Memory, Memory.wf m = true → Memory.wf m' = true →
    (∀ addr, Memory.get m addr = Memory.get m' addr) → m = m'

/-! ### Encoding -/

/-- Decoding an encoded well-formed command gives it back, every operand at every value (30_encoding.md R71 to R75). -/
def Obligations.DecodeOfEncode : Prop :=
  ∀ (aw : Nat) (i : Instr), i.wf aw = true → decode aw (encode i) = .command i

/-- A packet that decodes is exactly the encoding of the command it decodes to, and that command is well-formed: no bit
of a packet is ignored (30_encoding.md R72, R73, R75). -/
def Obligations.DecodedPacketIsItsEncoding : Prop :=
  ∀ (aw : Nat) (ws : List Word64) (i : Instr), decode aw ws = .command i → ws = encode i ∧ i.wf aw = true

/-- The packets of 95_test_vectors.md V50, written out word by word, decode to their commands. -/
def Obligations.WrittenPacketsDecode : Prop :=
  decode 64 [0x0000000000000001] = .command .init ∧
  decode 64 [0x0000000000000002, 0x0000000000001000, 0x0000000000000003] = .command (.absorb 0x1000 3) ∧
  decode 64 [0x0000000000000003, 0x0000000000002000] = .command (.final 0x2000) ∧
  decode 64 [0x0000000000000004, 0x0000000000005000, 0x0000000000004000, 0x0000000000000005, 0x000000000000401e,
    0x0000000000000014] = .command (.hmac 0x5000 0x4000 5 0x401e 20) ∧
  decode 64 [0x0000000000000005] = .command .desc

/-- 30_encoding.md R79: a packet is reserved, and refused, when its opcode is 0x00 or in 0x06 .. 0xFF, or `W0[63:8]` is not
zero, or (the packet being otherwise one of the three formats that have addresses) an address operand has a bit set at or
above `AW`. -/
def Obligations.ReservedPacketsAreRefused : Prop :=
  ∀ (s : State) (rest : List HostInput),
    (∀ (w0 : Word64) (ops : List Word64), s.host = .packet (w0 :: ops) :: rest →
      ((w0.extractLsb' 0 8).toNat = 0 ∨ 6 ≤ (w0.extractLsb' 0 8).toNat ∨ w0.extractLsb' 8 56 ≠ 0) →
      step s = .refused .reservedPacket) ∧
    (∀ addr len : Word64, s.host = .packet [0x02, addr, len] :: rest →
      (∃ b, s.params.aw ≤ b ∧ addr.getLsbD b = true) → step s = .refused .reservedPacket) ∧
    (∀ out : Word64, s.host = .packet [0x03, out] :: rest →
      (∃ b, s.params.aw ≤ b ∧ out.getLsbD b = true) → step s = .refused .reservedPacket) ∧
    (∀ out key klen msg mlen : Word64, s.host = .packet [0x04, out, key, klen, msg, mlen] :: rest →
      (∃ b, s.params.aw ≤ b ∧ (out.getLsbD b = true ∨ key.getLsbD b = true ∨ msg.getLsbD b = true)) →
      step s = .refused .reservedPacket)

/-- 30_encoding.md R80: written as bytes, each word goes least significant byte first, words in order; and the bytes read
back as the packet. -/
def Obligations.PacketsAsBytes : Prop :=
  ∀ ws : List Word64, (packetBytes ws).length = 8 * ws.length ∧
    (∀ (j k : Nat) (w : Word64), ws[j]? = some w → k < 8 →
      (packetBytes ws)[8 * j + k]? = some (w.extractLsb' (8 * k) 8)) ∧
    packetOfBytes (packetBytes ws) = ws

/-! ### Primitives, tables, compression -/

/-- 00_scope.md R11: the arithmetic primitives on words of `w` bits, by their formulas on numbers. -/
def Obligations.ArithmeticPrimitives : Prop :=
  ∀ (w : Nat) (x y : BitVec w),
    (x + y).toNat = (x.toNat + y.toNat) % 2 ^ w ∧
    (∀ i < w, (x &&& y).getLsbD i = (x.getLsbD i && y.getLsbD i) ∧ (x ||| y).getLsbD i = (x.getLsbD i || y.getLsbD i) ∧
      (x ^^^ y).getLsbD i = (x.getLsbD i != y.getLsbD i)) ∧
    (~~~x).toNat = 2 ^ w - 1 - x.toNat ∧
    (∀ n < w, (x >>> n).toNat = x.toNat / 2 ^ n) ∧
    (∀ n, 0 < n → n < w →
      (rotl x n).toNat = x.toNat * 2 ^ n % 2 ^ w + x.toNat / 2 ^ (w - n) ∧
      (rotr x n).toNat = x.toNat / 2 ^ n + x.toNat % 2 ^ n * 2 ^ (w - n))

/-- 00_scope.md R12: word assembly and disassembly, by value and by bits, and that they undo each other. -/
def Obligations.WordAssembly : Prop :=
  (∀ b0 b1 b2 b3 : Byte,
    (le32 b0 b1 b2 b3).toNat = b0.toNat + b1.toNat * 2 ^ 8 + b2.toNat * 2 ^ 16 + b3.toNat * 2 ^ 24 ∧
    tole32 (le32 b0 b1 b2 b3) = [b0, b1, b2, b3]) ∧
  (∀ b0 b1 b2 b3 b4 b5 b6 b7 : Byte,
    (be64 b0 b1 b2 b3 b4 b5 b6 b7).toNat =
      b0.toNat * 2 ^ 56 + b1.toNat * 2 ^ 48 + b2.toNat * 2 ^ 40 + b3.toNat * 2 ^ 32 + b4.toNat * 2 ^ 24 +
        b5.toNat * 2 ^ 16 + b6.toNat * 2 ^ 8 + b7.toNat ∧
    tobe64 (be64 b0 b1 b2 b3 b4 b5 b6 b7) = [b0, b1, b2, b3, b4, b5, b6, b7]) ∧
  (∀ x : Word32, (tole32 x).length = 4 ∧ ∀ k < 4, (tole32 x)[k]? = some (x.extractLsb' (8 * k) 8)) ∧
  (∀ x : Word64, (tole64 x).length = 8 ∧ ∀ k < 8, (tole64 x)[k]? = some (x.extractLsb' (8 * k) 8)) ∧
  (∀ x : Word64, (tobe64 x).length = 8 ∧ ∀ k < 8, (tobe64 x)[k]? = some (x.extractLsb' (56 - 8 * k) 8))

/-- 41_compress_f128.md R124 and 42_compress_f512.md R142, bit by bit: "b selects c or d", "d selects b or c", parity, and
the fourth function; "e selects f or g", and the majority of three (on words of any width, as R182 uses them on 32 bits). -/
def Obligations.MixingFunctionsBitByBit : Prop :=
  (∀ (b c d : Word32) (i : Nat), i < 32 →
    (mix128 0 b c d).getLsbD i = (if b.getLsbD i then c.getLsbD i else d.getLsbD i) ∧
    (mix128 1 b c d).getLsbD i = (if d.getLsbD i then b.getLsbD i else c.getLsbD i) ∧
    (mix128 2 b c d).getLsbD i = ((b.getLsbD i != c.getLsbD i) != d.getLsbD i) ∧
    (mix128 3 b c d).getLsbD i = (c.getLsbD i != (b.getLsbD i || !d.getLsbD i))) ∧
  (∀ (w : Nat) (x y z : BitVec w) (i : Nat), i < w →
    (ch x y z).getLsbD i = (if x.getLsbD i then y.getLsbD i else z.getLsbD i) ∧
    (maj x y z).getLsbD i =
      decide (2 ≤ (x.getLsbD i).toNat + (y.getLsbD i).toNat + (z.getLsbD i).toNat))

/-- 41_compress_f128.md R123: the message-word index of each round by the formula of its quadrant, the list the rule writes
out, and each row a permutation of `0 .. 15`. -/
def Obligations.MessageWordOrder : Prop :=
  (∀ i < 16, g128 i = i % 16) ∧ (∀ i, 16 ≤ i → i < 32 → g128 i = (5 * i + 1) % 16) ∧
  (∀ i, 32 ≤ i → i < 48 → g128 i = (3 * i + 5) % 16) ∧ (∀ i, 48 ≤ i → i < 64 → g128 i = 7 * i % 16) ∧
  (List.range 64).map g128 =
    [0, 1, 2, 3, 4, 5, 6, 7, 8, 9, 10, 11, 12, 13, 14, 15] ++ [1, 6, 11, 0, 5, 10, 15, 4, 9, 14, 3, 8, 13, 2, 7, 12] ++
    [5, 8, 11, 14, 1, 4, 7, 10, 13, 0, 3, 6, 9, 12, 15, 2] ++ [0, 7, 14, 5, 12, 3, 10, 1, 8, 15, 6, 13, 4, 11, 2, 9] ∧
  ∀ q < 4, ((List.range 16).map fun j => g128 (16 * q + j)).Perm (List.range 16)

/-- 42_compress_f512.md R140 and R141: the initial words are the first 64 fraction bits of the square roots of the first
eight primes, the round constants those of the cube roots of the first eighty. -/
def Obligations.RootConstants : Prop :=
  (∃ primes : List Nat,
    primes = (List.range 410).filter (fun n => decide (2 ≤ n) && (List.range n).all fun d => decide (d < 2) || decide (n % d ≠ 0)) ∧
    primes.length = 80 ∧
    (∀ t < 80, ∃ r ≤ 7, r ^ 3 ≤ primes.getD t 0 ∧ primes.getD t 0 < (r + 1) ^ 3 ∧
      (r * 2 ^ 64 + (k512 t).toNat) ^ 3 ≤ primes.getD t 0 * 2 ^ 192 ∧
      primes.getD t 0 * 2 ^ 192 < (r * 2 ^ 64 + (k512 t).toNat + 1) ^ 3) ∧
    (∀ t < 8, ∃ r ≤ 4, r ^ 2 ≤ primes.getD t 0 ∧ primes.getD t 0 < (r + 1) ^ 2 ∧
      (r * 2 ^ 64 + ([iv512.a, iv512.b, iv512.c, iv512.d, iv512.e, iv512.f, iv512.g, iv512.h].getD t 0).toNat) ^ 2
        ≤ primes.getD t 0 * 2 ^ 128 ∧
      primes.getD t 0 * 2 ^ 128 <
        (r * 2 ^ 64 + ([iv512.a, iv512.b, iv512.c, iv512.d, iv512.e, iv512.f, iv512.g, iv512.h].getD t 0).toNat + 1) ^ 2))

/-- 41_compress_f128.md R122, R125, R126: the rotation amounts of each quadrant, and `Compress` of `F128` as the rule's run of
64 rounds: the words before round `i` are `a i, b i, c i, d i`, and the result is the feed-forward. The round constants
are written out as R121 lists them, four to a row; nothing is said of the sine they come from. -/
def Obligations.CompressF128Rounds : Prop :=
  (∀ i < 64, s128 i =
    (if i < 16 then [7, 12, 17, 22] else if i < 32 then [5, 9, 14, 20] else if i < 48 then [4, 11, 16, 23]
      else [6, 10, 15, 21]).getD (i % 4) 0) ∧
  ((List.range 16).map fun r => [k128 (4 * r), k128 (4 * r + 1), k128 (4 * r + 2), k128 (4 * r + 3)]) =
    [[0xd76aa478, 0xe8c7b756, 0x242070db, 0xc1bdceee], [0xf57c0faf, 0x4787c62a, 0xa8304613, 0xfd469501],
      [0x698098d8, 0x8b44f7af, 0xffff5bb1, 0x895cd7be], [0x6b901122, 0xfd987193, 0xa679438e, 0x49b40821]] ++
    [[0xf61e2562, 0xc040b340, 0x265e5a51, 0xe9b6c7aa], [0xd62f105d, 0x02441453, 0xd8a1e681, 0xe7d3fbc8],
      [0x21e1cde6, 0xc33707d6, 0xf4d50d87, 0x455a14ed], [0xa9e3e905, 0xfcefa3f8, 0x676f02d9, 0x8d2a4c8a]] ++
    [[0xfffa3942, 0x8771f681, 0x6d9d6122, 0xfde5380c], [0xa4beea44, 0x4bdecfa9, 0xf6bb4b60, 0xbebfbc70],
      [0x289b7ec6, 0xeaa127fa, 0xd4ef3085, 0x04881d05], [0xd9d4d039, 0xe6db99e5, 0x1fa27cf8, 0xc4ac5665]] ++
    [[0xf4292244, 0x432aff97, 0xab9423a7, 0xfc93a039], [0x655b59c3, 0x8f0ccc92, 0xffeff47d, 0x85845dd1],
      [0x6fa87e4f, 0xfe2ce6e0, 0xa3014314, 0x4e0811a1], [0xf7537e82, 0xbd3af235, 0x2ad7d2bb, 0xeb86d391]] ∧
  ∀ (hin : Quad) (blk : List Byte), blk.length = 64 →
    ∃ (m a b c d : Nat → Word32),
      (∀ j < 16, m j = le32 (byteAt blk (4 * j)) (byteAt blk (4 * j + 1)) (byteAt blk (4 * j + 2)) (byteAt blk (4 * j + 3))) ∧
      a 0 = hin.a ∧ b 0 = hin.b ∧ c 0 = hin.c ∧ d 0 = hin.d ∧
      (∀ i < 64, a (i + 1) = d i ∧ c (i + 1) = b i ∧ d (i + 1) = c i ∧
        b (i + 1) = b i + rotl (a i + mix128 (i / 16) (b i) (c i) (d i) + k128 i + m (g128 i)) (s128 i)) ∧
      compress128 hin blk = ⟨hin.a + a 64, hin.b + b 64, hin.c + c 64, hin.d + d 64⟩

/-- 42_compress_f512.md R143 to R148: `Compress` of `F512` as the rule's schedule of 80 words and run of 80 rounds, every
rotation and shift amount written out (R143, R144). -/
def Obligations.CompressF512Rounds : Prop :=
  ∀ (hin : Oct 64) (blk : List Byte), blk.length = 128 →
    ∃ (w a b c d e f g h t1 t2 : Nat → Word64),
      (∀ j < 16, w j = be64 (byteAt blk (8 * j)) (byteAt blk (8 * j + 1)) (byteAt blk (8 * j + 2)) (byteAt blk (8 * j + 3))
        (byteAt blk (8 * j + 4)) (byteAt blk (8 * j + 5)) (byteAt blk (8 * j + 6)) (byteAt blk (8 * j + 7))) ∧
      (∀ t, 16 ≤ t → t < 80 → w t =
        (rotr (w (t - 2)) 19 ^^^ rotr (w (t - 2)) 61 ^^^ (w (t - 2) >>> 6)) + w (t - 7) +
          (rotr (w (t - 15)) 1 ^^^ rotr (w (t - 15)) 8 ^^^ (w (t - 15) >>> 7)) + w (t - 16)) ∧
      a 0 = hin.a ∧ b 0 = hin.b ∧ c 0 = hin.c ∧ d 0 = hin.d ∧ e 0 = hin.e ∧ f 0 = hin.f ∧ g 0 = hin.g ∧ h 0 = hin.h ∧
      (∀ t < 80,
        t1 t = h t + (rotr (e t) 14 ^^^ rotr (e t) 18 ^^^ rotr (e t) 41) + ch (e t) (f t) (g t) + k512 t + w t ∧
        t2 t = (rotr (a t) 28 ^^^ rotr (a t) 34 ^^^ rotr (a t) 39) + maj (a t) (b t) (c t) ∧
        a (t + 1) = t1 t + t2 t ∧ b (t + 1) = a t ∧ c (t + 1) = b t ∧ d (t + 1) = c t ∧ e (t + 1) = d t + t1 t ∧
        f (t + 1) = e t ∧ g (t + 1) = f t ∧ h (t + 1) = g t) ∧
      compress512 hin blk =
        ⟨hin.a + a 80, hin.b + b 80, hin.c + c 80, hin.d + d 80, hin.e + e 80, hin.f + f 80, hin.g + g 80, hin.h + h 80⟩

/-- 44_optional_siblings.md R182: `Compress` of `S256` as a schedule of 64 words and a run of 64 rounds on 32-bit words. -/
def Obligations.CompressS256Rounds : Prop :=
  ∀ (hin : Oct 32) (blk : List Byte), blk.length = 64 →
    ∃ (w a b c d e f g h t1 t2 : Nat → Word32),
      (∀ j < 16, w j = be32 (byteAt blk (4 * j)) (byteAt blk (4 * j + 1)) (byteAt blk (4 * j + 2)) (byteAt blk (4 * j + 3))) ∧
      (∀ t, 16 ≤ t → t < 64 → w t =
        (rotr (w (t - 2)) 17 ^^^ rotr (w (t - 2)) 19 ^^^ (w (t - 2) >>> 10)) + w (t - 7) +
          (rotr (w (t - 15)) 7 ^^^ rotr (w (t - 15)) 18 ^^^ (w (t - 15) >>> 3)) + w (t - 16)) ∧
      a 0 = hin.a ∧ b 0 = hin.b ∧ c 0 = hin.c ∧ d 0 = hin.d ∧ e 0 = hin.e ∧ f 0 = hin.f ∧ g 0 = hin.g ∧ h 0 = hin.h ∧
      (∀ t < 64,
        t1 t = h t + (rotr (e t) 6 ^^^ rotr (e t) 11 ^^^ rotr (e t) 25) + ch (e t) (f t) (g t) + k256 t + w t ∧
        t2 t = (rotr (a t) 2 ^^^ rotr (a t) 13 ^^^ rotr (a t) 22) + maj (a t) (b t) (c t) ∧
        a (t + 1) = t1 t + t2 t ∧ b (t + 1) = a t ∧ c (t + 1) = b t ∧ d (t + 1) = c t ∧ e (t + 1) = d t + t1 t ∧
        f (t + 1) = e t ∧ g (t + 1) = f t ∧ h (t + 1) = g t) ∧
      compress256 hin blk =
        ⟨hin.a + a 64, hin.b + b 64, hin.c + c 64, hin.d + d 64, hin.e + e 64, hin.f + f 64, hin.g + g 64, hin.h + h 64⟩

/-- 44_optional_siblings.md R183: `Compress` of `S1` as a schedule of 80 words and a run of 80 rounds, the function `fn t` and
the constant of each of the four groups of twenty rounds written out. -/
def Obligations.CompressS1Rounds : Prop :=
  ∀ (hin : Pent) (blk : List Byte), blk.length = 64 →
    ∃ (w a b c d e fn : Nat → Word32),
      (∀ j < 16, w j = be32 (byteAt blk (4 * j)) (byteAt blk (4 * j + 1)) (byteAt blk (4 * j + 2)) (byteAt blk (4 * j + 3))) ∧
      (∀ t, 16 ≤ t → t < 80 → w t = rotl (w (t - 3) ^^^ w (t - 8) ^^^ w (t - 14) ^^^ w (t - 16)) 1) ∧
      a 0 = hin.a ∧ b 0 = hin.b ∧ c 0 = hin.c ∧ d 0 = hin.d ∧ e 0 = hin.e ∧
      (∀ t < 20, fn t = ((b t &&& c t) ||| (~~~(b t) &&& d t)) ∧
        a (t + 1) = rotl (a t) 5 + fn t + e t + 0x5a827999 + w t) ∧
      (∀ t, 20 ≤ t → t < 40 → fn t = b t ^^^ c t ^^^ d t ∧
        a (t + 1) = rotl (a t) 5 + fn t + e t + 0x6ed9eba1 + w t) ∧
      (∀ t, 40 ≤ t → t < 60 → fn t = ((b t &&& c t) ||| (b t &&& d t) ||| (c t &&& d t)) ∧
        a (t + 1) = rotl (a t) 5 + fn t + e t + 0x8f1bbcdc + w t) ∧
      (∀ t, 60 ≤ t → t < 80 → fn t = b t ^^^ c t ^^^ d t ∧
        a (t + 1) = rotl (a t) 5 + fn t + e t + 0xca62c1d6 + w t) ∧
      (∀ t < 80,
        b (t + 1) = a t ∧ c (t + 1) = rotl (b t) 30 ∧ d (t + 1) = c t ∧ e (t + 1) = d t) ∧
      compressS1 hin blk = ⟨hin.a + a 80, hin.b + b 80, hin.c + c 80, hin.d + d 80, hin.e + e 80⟩

/-- 44_optional_siblings.md R181 and R184 in part: the constants of `S256` are the high halves of the first 64 of `F512`;
`S384` compresses and pads as `F512` does, and its digest is the first 48 of the 64 bytes. -/
def Obligations.SiblingsShareF512 : Prop :=
  (∀ t < 64, (k256 t).toNat = (k512 t).toNat / 2 ^ 32) ∧
  ∀ (v : Oct 64) (blk : List Byte) (l : Word64),
    (familyOf .s384).compress (.s384 v) blk = .s384 (compress512 v blk) ∧
    (familyOf .f512).compress (.f512 v) blk = .f512 (compress512 v blk) ∧
    (familyOf .s384).lenField l = (familyOf .f512).lenField l ∧
    (familyOf .s384).serialize (.s384 v) = ((familyOf .f512).serialize (.f512 v)).take 48

/-- 41_compress_f128.md R127, 42_compress_f512.md R149: the length field of `F128` is the length least significant byte
first; that of `F512` is sixteen bytes, a big-endian number equal to the length, whose first eight bytes are zero. Those of the
optional `S1` and `S256` are the length most significant byte first (44_optional_siblings.md section 1). -/
def Obligations.LengthFields : Prop :=
  ∀ l : Word64,
    (lenFieldOf .f128 l).length = 8 ∧
    (lenFieldOf .f128 l).foldr (fun b n => b.toNat + 256 * n) 0 = l.toNat ∧
    (lenFieldOf .f512 l).length = 16 ∧ (∀ k < 8, (lenFieldOf .f512 l)[k]? = some 0) ∧
    (lenFieldOf .f512 l).foldl (fun n b => 256 * n + b.toNat) 0 = l.toNat ∧
    ∀ a, a = Alg.s1 ∨ a = Alg.s256 →
      (lenFieldOf a l).length = 8 ∧ (lenFieldOf a l).foldl (fun n b => 256 * n + b.toNat) 0 = l.toNat

/-- 41_compress_f128.md R128, 42_compress_f512.md R150: the digest is the chaining words in order, each in the byte order of the
family: in `F128` byte `k` of a word is bits `8k + 7` to `8k`, in `F512` the most significant byte comes first; and so in
the optional `S1` and `S256` (44_optional_siblings.md section 1; `S384` is in `SiblingsShareF512`). -/
def Obligations.DigestByteOrder : Prop :=
  (∀ v : Quad, (serializeChain (.f128 v)).length = 16 ∧ ∀ (j k : Nat) (x : Word32),
    [v.a, v.b, v.c, v.d][j]? = some x → k < 4 →
      (serializeChain (.f128 v))[4 * j + k]? = some (x.extractLsb' (8 * k) 8)) ∧
  (∀ v : Oct 64, (serializeChain (.f512 v)).length = 64 ∧ ∀ (j k : Nat) (x : Word64),
    [v.a, v.b, v.c, v.d, v.e, v.f, v.g, v.h][j]? = some x → k < 8 →
      (serializeChain (.f512 v))[8 * j + k]? = some (x.extractLsb' (56 - 8 * k) 8)) ∧
  (∀ v : Pent, (serializeChain (.s1 v)).length = 20 ∧ ∀ (j k : Nat) (x : Word32),
    [v.a, v.b, v.c, v.d, v.e][j]? = some x → k < 4 →
      (serializeChain (.s1 v))[4 * j + k]? = some (x.extractLsb' (24 - 8 * k) 8)) ∧
  ∀ v : Oct 32, (serializeChain (.s256 v)).length = 32 ∧ ∀ (j k : Nat) (x : Word32),
    [v.a, v.b, v.c, v.d, v.e, v.f, v.g, v.h][j]? = some x → k < 4 →
      (serializeChain (.s256 v))[4 * j + k]? = some (x.extractLsb' (24 - 8 * k) 8)

/-- 00_scope.md R8 and 44_optional_siblings.md R180 in part: the block size, the digest size and the size of the length field of
each instance, as the shared buffering logic uses them (40_hash_commands.md R90). -/
def Obligations.InstanceSizes : Prop :=
  (∀ a : Alg, (familyOf a).blockSize = a.blockSize ∧ (familyOf a).lenFieldSize = a.lenFieldSize ∧
    (∀ l, ((familyOf a).lenField l).length = a.lenFieldSize) ∧
    ∀ h : Chain, h.alg = a → ((familyOf a).serialize h).length = a.outSize) ∧
  Alg.f128.blockSize = 64 ∧ Alg.f128.outSize = 16 ∧ Alg.f128.lenFieldSize = 8 ∧
  Alg.f512.blockSize = 128 ∧ Alg.f512.outSize = 64 ∧ Alg.f512.lenFieldSize = 16 ∧
  Alg.s1.blockSize = 64 ∧ Alg.s1.outSize = 20 ∧ Alg.s1.lenFieldSize = 8 ∧
  Alg.s256.blockSize = 64 ∧ Alg.s256.outSize = 32 ∧ Alg.s256.lenFieldSize = 8 ∧
  Alg.s384.blockSize = 128 ∧ Alg.s384.outSize = 48 ∧ Alg.s384.lenFieldSize = 16

/-! ### Buffering and padding -/

/-- 40_hash_commands.md R93: an absorb of `n` bytes adds `8 × n` to the counter modulo `2^64`, once, whether or not it
compresses; `InitCtx` sets it to 0, and neither a padding byte nor `Finalize` moves it. -/
def Obligations.BitCounter : Prop :=
  ∀ (χ : Type) (fam : Family χ) (x : HashCtx χ) (s : List Byte) (v : Byte),
    (absorbBytes fam x s).count.toNat = (x.count.toNat + 8 * s.length) % 2 ^ 64 ∧
    (initCtx fam x).count = 0 ∧ (pushByte fam x v).count = x.count ∧ (padCtx fam x).count = x.count

/-- 40_hash_commands.md R94: with `k = floor((FILL + n) / B)`, `AbsorbBytes` compresses the `k` full blocks of what was
buffered followed by the input, in order, and buffers the rest. -/
def Obligations.AbsorbLoopEffect : Prop :=
  ∀ (χ : Type) (fam : Family χ) (x : HashCtx χ) (s : List Byte),
    0 < fam.blockSize → x.buf.length = fam.blockSize → x.fill < fam.blockSize →
    (absorbBytes fam x s).h = (blocksOf fam.blockSize (x.buf.take x.fill ++ s)).foldl fam.compress x.h ∧
    (blocksOf fam.blockSize (x.buf.take x.fill ++ s)).length = (x.fill + s.length) / fam.blockSize ∧
    (absorbBytes fam x s).fill = (x.fill + s.length) % fam.blockSize ∧
    (absorbBytes fam x s).buf.take (absorbBytes fam x s).fill =
      (x.buf.take x.fill ++ s).drop ((x.fill + s.length) / fam.blockSize * fam.blockSize) ∧
    (absorbBytes fam x s).count = x.count + BitVec.ofNat 64 (8 * s.length) ∧
    (absorbBytes fam x s).buf.length = fam.blockSize

/-- 40_hash_commands.md R96: `PushByte(X, v)` is `AbsorbBytes(X, [v])` without the counter update: the byte goes to
`BUF[FILL]`, `FILL` advances, and a full block is compressed and emptied. -/
def Obligations.PushByteIsAbsorbOfOneByte : Prop :=
  ∀ (a : Alg) (x : HashCtx Chain) (v : Byte), CtxShape a x →
    pushByte (familyOf a) x v = { absorbBytes (familyOf a) x [v] with count := x.count } ∧
    (pushByte (familyOf a) x v).buf = x.buf.set x.fill v ∧
    (x.fill + 1 ≠ a.blockSize → (pushByte (familyOf a) x v).fill = x.fill + 1 ∧ (pushByte (familyOf a) x v).h = x.h) ∧
    (x.fill + 1 = a.blockSize → (pushByte (familyOf a) x v).fill = 0 ∧
      (pushByte (familyOf a) x v).h = compressChain x.h (x.buf.set x.fill v))

/-- Chunking invariance on the context (10_state.md R37, 40_hash_commands.md R103 item 2): absorbing two chunks is
absorbing their concatenation, the whole context included. -/
def Obligations.ChunkingInvariance : Prop :=
  ∀ (a : Alg) (x : HashCtx Chain) (s t : List Byte), CtxShape a x →
    absorbBytes (familyOf a) (absorbBytes (familyOf a) x s) t = absorbBytes (familyOf a) x (s ++ t)

/-- 10_state.md R37: from an `INIT` on, the context stands for the bytes absorbed since, and the commands that do not
touch it leave it so. -/
def Obligations.ContextStandsForTheMessage : Prop :=
  ∀ s t : State, s.Inv →
    (exec .init s = .next t → Represents (familyOf t.alg) t.ctx []) ∧
    (∀ (addr len : Word64) (m : List Byte), Represents (familyOf s.alg) s.ctx m → exec (.absorb addr len) s = .next t →
      Represents (familyOf t.alg) t.ctx (m ++ Memory.readBytes s.mem addr.toNat len.toNat)) ∧
    (∀ (i : Instr) (m : List Byte), (i = .desc ∨ ∃ out key klen msg mlen, i = .hmac out key klen msg mlen) →
      Represents (familyOf s.alg) s.ctx m → exec i s = .next t → Represents (familyOf t.alg) t.ctx m)

/-- 40_hash_commands.md R97: padding pushes the marker, `z` zero bytes with `0 ≤ z ≤ B - 1` that bring `FILL` to
`B - LENF`, and the length field of the latched counter; `FILL` ends at 0; the digest is `Serialize` of what `H` then is;
`Compress` runs once when `FILL ≤ B - LENF - 1` and twice otherwise. -/
def Obligations.PaddingMachine : Prop :=
  ∀ (a : Alg) (x : HashCtx Chain), CtxShape a x →
    ∃ z < a.blockSize,
      (x.fill + 1 + z) % a.blockSize = a.blockSize - a.lenFieldSize ∧
      padCtx (familyOf a) x =
        ([0x80] ++ List.replicate z 0x00 ++ lenFieldOf a x.count).foldl (pushByte (familyOf a)) x ∧
      (padCtx (familyOf a) x).fill = 0 ∧
      finalize (familyOf a) x = serializeChain (padCtx (familyOf a) x).h ∧
      (padCtx (countingFamily a) { h := 0, count := x.count, buf := x.buf, fill := x.fill }).h =
        if x.fill ≤ a.blockSize - a.lenFieldSize - 1 then 1 else 2

/-- 40_hash_commands.md R100: a message absorbed in any chunks after `InitCtx` gives `Hash(m)` of the message. -/
def Obligations.DigestOfAnyChunks : Prop :=
  ∀ (a : Alg) (x : HashCtx Chain) (chunks : List (List Byte)), x.buf.length = a.blockSize →
    chunks.flatten.length < 2 ^ 61 →
    finalize (familyOf a) (chunks.foldl (absorbBytes (familyOf a)) (initCtx (familyOf a) x)) =
      hashOf (familyOf a) chunks.flatten

/-- 40_hash_commands.md R101: over one digest of `n` bytes `Compress` runs `floor(n / B)` times while absorbing, and once
more or twice more while padding, by `n mod B`. -/
def Obligations.CompressionCounts : Prop :=
  ∀ (a : Alg) (x : HashCtx Nat) (chunks : List (List Byte)), x.buf.length = a.blockSize →
    (chunks.foldl (absorbBytes (countingFamily a)) (initCtx (countingFamily a) x)).h =
      chunks.flatten.length / a.blockSize ∧
    (padCtx (countingFamily a) (chunks.foldl (absorbBytes (countingFamily a)) (initCtx (countingFamily a) x))).h =
      chunks.flatten.length / a.blockSize +
        if chunks.flatten.length % a.blockSize ≤ a.blockSize - a.lenFieldSize - 1 then 1 else 2

/-- 43_hmac.md R168: the compressions of the inner and of the outer cycle of one `HMAC`. -/
def Obligations.HmacCompressionCounts : Prop :=
  ∀ (a : Alg) (x y : HashCtx Nat) (kb msg idig : List Byte), x.buf.length = a.blockSize → y.buf.length = a.blockSize →
    kb.length = a.blockSize → idig.length = a.outSize →
    (padCtx (countingFamily a) (absorbTwo (countingFamily a) x kb msg)).h =
      (1 + msg.length / a.blockSize + if msg.length % a.blockSize ≤ a.blockSize - a.lenFieldSize - 1 then 1 else 2) ∧
    (padCtx (countingFamily a) (absorbTwo (countingFamily a) y kb idig)).h = 2

/-- The counting and recording families see the engine's own compressions: the chaining state is `Compress` folded over the
recorded blocks, and as many are recorded as counted, through absorbing and padding (40_hash_commands.md R90: the buffering
logic is written once and sees the family only through what it supplies). -/
def Obligations.RecordedBlocksAreTheCompressions : Prop :=
  ∀ (a : Alg) (x : HashCtx Chain) (s : List Byte), CtxShape a x →
    let real := padCtx (familyOf a) (absorbBytes (familyOf a) x s)
    let recd := padCtx (recordingFamily a) (absorbBytes (recordingFamily a) { h := [], count := x.count, buf := x.buf, fill := x.fill } s)
    let cntd := padCtx (countingFamily a) (absorbBytes (countingFamily a) { h := 0, count := x.count, buf := x.buf, fill := x.fill } s)
    real.h = recd.h.foldl compressChain x.h ∧ cntd.h = recd.h.length ∧ (∀ blk ∈ recd.h, blk.length = a.blockSize) ∧
      real.buf = recd.buf ∧ real.fill = recd.fill ∧ real.count = recd.count

/-! ### The commands -/

/-- 40_hash_commands.md R92, 41_compress_f128.md R120, 42_compress_f512.md R140: `INIT` completes in every phase: the chaining
state is the initialisation vector of the instance, its words written out, counter and fill are 0, the phase is `ACTIVE`,
the answer is `OK`; nothing else changes, `BUF` included. The vectors of the optional instances are those of
44_optional_siblings.md sections 2 to 4. -/
def Obligations.InitCompletes : Prop :=
  (∀ s : State, exec .init s =
    .next { s with
      ctx := { h := ivOf s.alg, count := 0, buf := s.ctx.buf, fill := 0 }
      phase := .active
      rsp := [0x0000000000000000] }) ∧
  ivOf .f128 = .f128 { a := 0x67452301, b := 0xefcdab89, c := 0x98badcfe, d := 0x10325476 } ∧
  ivOf .f512 = .f512
    { a := 0x6a09e667f3bcc908, b := 0xbb67ae8584caa73b, c := 0x3c6ef372fe94f82b, d := 0xa54ff53a5f1d36f1
      e := 0x510e527fade682d1, f := 0x9b05688c2b3e6c1f, g := 0x1f83d9abfb41bd6b, h := 0x5be0cd19137e2179 } ∧
  ivOf .s1 = .s1 { a := 0x67452301, b := 0xefcdab89, c := 0x98badcfe, d := 0x10325476, e := 0xc3d2e1f0 } ∧
  ivOf .s256 = .s256
    { a := 0x6a09e667, b := 0xbb67ae85, c := 0x3c6ef372, d := 0xa54ff53a
      e := 0x510e527f, f := 0x9b05688c, g := 0x1f83d9ab, h := 0x5be0cd19 } ∧
  ivOf .s384 = .s384
    { a := 0xcbbb9d5dc1059ed8, b := 0x629a292a367cd507, c := 0x9159015a3070dd17, d := 0x152fecd8f70e5939
      e := 0x67332667ffc00b31, f := 0x8eb44a8768581511, g := 0xdb0c2e0d64f98fa7, h := 0x47b5481dbefa4fa4 }

/-- 40_hash_commands.md R91: `DESC` completes in every phase with `(OK, CTX_SIZE, B, OUT)` and changes nothing else; with
the default parameters the sizes are those the rule lists. -/
def Obligations.DescCompletes : Prop :=
  (∀ s : State, exec .desc s =
    .next { s with rsp := [0, s.params.ctxSize, BitVec.ofNat 64 s.alg.blockSize, BitVec.ofNat 64 s.alg.outSize] }) ∧
  (∀ s : State, s.params = Params.default s.alg →
    (s.alg = .f128 → exec .desc s = .next { s with rsp := [0, 96, 64, 16] }) ∧
    (s.alg = .f512 → exec .desc s = .next { s with rsp := [0, 208, 128, 64] }))

/-- 40_hash_commands.md R95: `ABSORB` completes in phase `ACTIVE` on a valid operand within the length limit (R22): it
feeds the operand's bytes, lowest address first, to the context and answers `OK`; nothing else changes, host memory
included. -/
def Obligations.AbsorbCompletes : Prop :=
  ∀ (s : State) (addr len : Word64), s.phase = .active → ValidOperand s.params addr.toNat len.toNat →
    s.ctx.count.toNat + 8 * len.toNat < 2 ^ 64 →
    ∃ bytes : List Byte, bytes.length = len.toNat ∧
      (∀ i < len.toNat, bytes[i]? = some (Memory.get s.mem (addr.toNat + i))) ∧
      exec (.absorb addr len) s =
        .next { s with ctx := absorbBytes (familyOf s.alg) s.ctx bytes, rsp := [0x0000000000000000] }

/-- 40_hash_commands.md R95, first corner case: `ABSORB` of no bytes completes at any address and changes only the
response. -/
def Obligations.AbsorbOfNothing : Prop :=
  ∀ (s : State) (addr : Word64), s.Inv → s.phase = .active →
    exec (.absorb addr 0) s = .next { s with rsp := [0x0000000000000000] }

/-- 40_hash_commands.md R98: `FINAL` completes in phase `ACTIVE` on a valid output range: the `OUT` bytes at `out` are the
digest, in ascending order, the phase is `FINALIZED`, the answer is `OK`; every other byte of host memory, the scratch and
the instance are unchanged. Nothing is said of `H`, `COUNT`, `BUF`, `FILL` (R99). -/
def Obligations.FinalCompletes : Prop :=
  ∀ (s : State) (out : Word64), s.Inv → s.phase = .active → ValidOperand s.params out.toNat s.alg.outSize →
    ∃ t, exec (.final out) s = .next t ∧
      (finalize (familyOf s.alg) s.ctx).length = s.alg.outSize ∧
      (∀ i < s.alg.outSize, (finalize (familyOf s.alg) s.ctx)[i]? = some (Memory.get t.mem (out.toNat + i))) ∧
      (∀ addr, ¬ inBytes out.toNat s.alg.outSize addr → Memory.get t.mem addr = Memory.get s.mem addr) ∧
      t.phase = .finalized ∧ t.rsp = [0x0000000000000000] ∧ t.scr = s.scr ∧ t.params = s.params ∧ t.alg = s.alg ∧
      t.scratchAvail = s.scratchAvail ∧ t.host = s.host

/-- 40_hash_commands.md R100, R103: `FINAL` writes `Hash(m)` of the message the context stands for. -/
def Obligations.FinalWritesTheDigest : Prop :=
  ∀ (s t : State) (out : Word64) (m : List Byte), s.Inv → Represents (familyOf s.alg) s.ctx m →
    exec (.final out) s = .next t →
    Memory.readBytes t.mem out.toNat s.alg.outSize = hashOf (familyOf s.alg) m

/-- 43_hmac.md R160, R162, R166, R167: with the scratch granted, valid operands and `B + mlen < 2^61`, `HMAC` completes in
every phase with `OK`: the `OUT` bytes at `out` are the tag of the key and message bytes that were in host memory when it
was issued, `out` overlapping them or not; the host context, its phase and every other byte are unchanged. -/
def Obligations.HmacCompletes : Prop :=
  ∀ (s : State) (out key klen msg mlen : Word64), s.Inv → s.scratchAvail = true →
    ValidOperand s.params key.toNat klen.toNat → ValidOperand s.params msg.toNat mlen.toNat →
    ValidOperand s.params out.toNat s.alg.outSize → s.alg.blockSize + mlen.toNat < 2 ^ 61 →
    ∃ t, exec (.hmac out key klen msg mlen) s = .next t ∧
      Memory.readBytes t.mem out.toNat s.alg.outSize =
        tagOf (familyOf s.alg) (Memory.readBytes s.mem key.toNat klen.toNat) (Memory.readBytes s.mem msg.toNat mlen.toNat) ∧
      (∀ addr, ¬ inBytes out.toNat s.alg.outSize addr → Memory.get t.mem addr = Memory.get s.mem addr) ∧
      t.ctx = s.ctx ∧ t.phase = s.phase ∧ t.rsp = [0x0000000000000000] ∧ t.params = s.params ∧
      t.scratchAvail = s.scratchAvail ∧ t.host = s.host

/-- 43_hmac.md R161: `scratch_avail` is sampled before anything else; without it `HMAC` answers `ALLOC_FAIL` whatever its
operands and changes nothing else; with it the command, if the model gives it a meaning, answers `OK`. -/
def Obligations.HmacAllocationFailure : Prop :=
  ∀ (s : State) (out key klen msg mlen : Word64),
    (s.scratchAvail = false →
      exec (.hmac out key klen msg mlen) s = .next { s with rsp := [0x0000000000000001] }) ∧
    (s.scratchAvail = true → ∀ t, exec (.hmac out key klen msg mlen) s = .next t → t.rsp = [0x0000000000000000])

/-- 43_hmac.md R162: whatever the status, `HMAC` leaves the host context and its phase as they were, and it reads nothing a
previous one left in the scratch: with any other scratch of the instance's shape the memory and the response are the
same. -/
def Obligations.HmacTouchesOnlyItsScratch : Prop :=
  ∀ (s t : State) (r : Scratch) (out key klen msg mlen : Word64), s.Inv → CtxShape s.alg r.ctx →
    exec (.hmac out key klen msg mlen) s = .next t →
    t.ctx = s.ctx ∧ t.phase = s.phase ∧ exec (.hmac out key klen msg mlen) { s with scr := r } =
      .next { t with scr := if s.scratchAvail then t.scr else r }

/-- 43_hmac.md R164: byte by byte, the key block is the first `min(klen, B)` key bytes xored with the mask byte, then the
mask byte; which is the mask byte xored into the key extended with zero bytes. -/
def Obligations.MaskedKeyBlock : Prop :=
  ∀ (m : Memory) (b key klen : Nat) (p : Byte),
    (maskKey m b key klen p).length = b ∧
    (∀ i < min klen b, (maskKey m b key klen p)[i]? = some (Memory.get m (key + i) ^^^ p)) ∧
    (∀ i, min klen b ≤ i → i < b → (maskKey m b key klen p)[i]? = some p) ∧
    maskKey m b key klen p = paddedKey b (Memory.readBytes m key klen) p

/-- 43_hmac.md R165: a key longer than a block acts as its first `B` bytes: the command with `klen` cut to `B` is the same
command, and key bytes from `B` on are not read: with host memory changed at will outside the first `B` key bytes and
the message, the tag is the same. -/
def Obligations.LongKeysAreCut : Prop :=
  ∀ (s t : State) (out key klen msg mlen : Word64), s.Inv → s.scratchAvail = true → s.alg.blockSize < klen.toNat →
    exec (.hmac out key klen msg mlen) s = .next t →
    exec (.hmac out key (BitVec.ofNat 64 s.alg.blockSize) msg mlen) s = .next t ∧
    ∀ m' : Memory, Memory.wf m' = true →
      (∀ i < s.alg.blockSize, Memory.get m' (key.toNat + i) = Memory.get s.mem (key.toNat + i)) →
      (∀ i < mlen.toNat, Memory.get m' (msg.toNat + i) = Memory.get s.mem (msg.toNat + i)) →
      ∃ t', exec (.hmac out key klen msg mlen) { s with mem := m' } = .next t' ∧
        Memory.readBytes t'.mem out.toNat s.alg.outSize = Memory.readBytes t.mem out.toNat s.alg.outSize

/-- 20_memory.md R51: the only bytes of host memory a command can change are the `OUT` bytes at the operand `out` of `FINAL`
and of `HMAC`, and none when the status is `ALLOC_FAIL`. -/
def Obligations.OnlyFinalAndHmacWriteMemory : Prop :=
  ∀ (i : Instr) (s t : State), s.Inv → exec i s = .next t →
    ((i = .init ∨ i = .desc ∨ ∃ addr len, i = .absorb addr len) → t.mem = s.mem) ∧
    (∀ out, i = .final out → ∀ addr, ¬ inBytes out.toNat s.alg.outSize addr →
      Memory.get t.mem addr = Memory.get s.mem addr) ∧
    (∀ out key klen msg mlen, i = .hmac out key klen msg mlen →
      (∀ addr, ¬ inBytes out.toNat s.alg.outSize addr → Memory.get t.mem addr = Memory.get s.mem addr) ∧
      (t.rsp = [0x0000000000000001] → t.mem = s.mem))

/-- 10_state.md R26: which command touches what. `INIT` writes `H`, `COUNT`, `FILL`, `PHASE`; `ABSORB` writes `H`, `COUNT`,
`BUF`, `FILL`; `FINAL` writes the context, `PHASE` and host memory; `HMAC` writes the scratch and host memory; `DESC` writes
nothing. Every command also leaves its response, and none touches the instance, the input `scratch_avail` or the outside
world. -/
def Obligations.CommandFrames : Prop :=
  ∀ (i : Instr) (s t : State), s.Inv → exec i s = .next t →
    t.params = s.params ∧ t.alg = s.alg ∧ t.scratchAvail = s.scratchAvail ∧ t.host = s.host ∧
    (i = .init → t.ctx.buf = s.ctx.buf ∧ t.scr = s.scr ∧ t.mem = s.mem) ∧
    (∀ addr len, i = .absorb addr len → t.phase = s.phase ∧ t.scr = s.scr ∧ t.mem = s.mem) ∧
    (∀ out, i = .final out → t.scr = s.scr) ∧
    (∀ out key klen msg mlen, i = .hmac out key klen msg mlen → t.ctx = s.ctx ∧ t.phase = s.phase) ∧
    (i = .desc → t.ctx = s.ctx ∧ t.phase = s.phase ∧ t.scr = s.scr ∧ t.mem = s.mem)

/-- 10_state.md R25: the transitions of the lifecycle: `INIT` from any phase to `ACTIVE`; `ABSORB` keeps `ACTIVE`; `FINAL`
from `ACTIVE` to `FINALIZED`; `HMAC` and `DESC` leave the phase; reset to `UNINIT`; and `ABSORB` or `FINAL` in any other
phase is refused. -/
def Obligations.PhaseTransitions : Prop :=
  (∀ (i : Instr) (s t : State), exec i s = .next t →
    (i = .init → t.phase = .active) ∧
    (∀ addr len, i = .absorb addr len → s.phase = .active ∧ t.phase = .active) ∧
    (∀ out, i = .final out → s.phase = .active ∧ t.phase = .finalized) ∧
    ((i = .desc ∨ ∃ out key klen msg mlen, i = .hmac out key klen msg mlen) → t.phase = s.phase)) ∧
  (∀ (s : State) (addr len out : Word64), s.phase ≠ .active →
    ∃ r, exec (.absorb addr len) s = .refused r ∧ exec (.final out) s = .refused r) ∧
  (∀ (s : State) (rest : List HostInput), s.host = .reset :: rest → ∃ t, step s = .next t ∧ t.phase = .uninit)

/-- 60_exceptions.md R201: every completed command answers `OK` in `RSP0`, but for an `HMAC` without its scratch, which
answers `ALLOC_FAIL`, records nothing and changes nothing else. -/
def Obligations.ResponsesAreOkOrAllocFail : Prop :=
  ∀ (i : Instr) (s t : State), exec i s = .next t →
    t.rsp.head? = some 0x0000000000000000 ∨
      (s.scratchAvail = false ∧ (∃ out key klen msg mlen, i = .hmac out key klen msg mlen) ∧
        t = { s with rsp := [0x0000000000000001] })

/-- 60_exceptions.md section 1: the commands are refused exactly on the violations it lists: wrong phase, invalid operand range,
message of `2^64` bits or more; `INIT` and `DESC` never, `HMAC` never without its scratch (section 3). Two clauses are
the model's choice and not the spec's: which refusal is named where several violations meet (phase, then operand range,
then length; notes/assumptions/17.md), and that the `ABSORB` or `HMAC` that would reach `2^64` bits is the command
refused (notes/assumptions/12.md). -/
def Obligations.RefusedExactlyOnViolations : Prop :=
  ∀ s : State,
    (∀ r, exec .init s ≠ .refused r ∧ exec .desc s ≠ .refused r) ∧
    (∀ addr len : Word64,
      (exec (.absorb addr len) s = .refused .contextUninit ↔ s.phase = .uninit) ∧
      (exec (.absorb addr len) s = .refused .contextFinalized ↔ s.phase = .finalized) ∧
      (exec (.absorb addr len) s = .refused .operandRange ↔
        s.phase = .active ∧ ¬ ValidOperand s.params addr.toNat len.toNat) ∧
      (exec (.absorb addr len) s = .refused .messageTooLong ↔
        s.phase = .active ∧ ValidOperand s.params addr.toNat len.toNat ∧
          2 ^ 64 ≤ s.ctx.count.toNat + 8 * len.toNat) ∧
      ∀ r, exec (.absorb addr len) s = .refused r →
        r ∈ [Refusal.contextUninit, .contextFinalized, .operandRange, .messageTooLong]) ∧
    (∀ out : Word64,
      (exec (.final out) s = .refused .contextUninit ↔ s.phase = .uninit) ∧
      (exec (.final out) s = .refused .contextFinalized ↔ s.phase = .finalized) ∧
      (exec (.final out) s = .refused .operandRange ↔
        s.phase = .active ∧ ¬ ValidOperand s.params out.toNat s.alg.outSize) ∧
      ∀ r, exec (.final out) s = .refused r → r ∈ [Refusal.contextUninit, .contextFinalized, .operandRange]) ∧
    (∀ out key klen msg mlen : Word64,
      (s.scratchAvail = false → ∀ r, exec (.hmac out key klen msg mlen) s ≠ .refused r) ∧
      (exec (.hmac out key klen msg mlen) s = .refused .operandRange ↔
        s.scratchAvail = true ∧ ¬ (ValidOperand s.params key.toNat klen.toNat ∧
          ValidOperand s.params msg.toNat mlen.toNat ∧ ValidOperand s.params out.toNat s.alg.outSize)) ∧
      (exec (.hmac out key klen msg mlen) s = .refused .messageTooLong ↔
        s.scratchAvail = true ∧ ValidOperand s.params key.toNat klen.toNat ∧
          ValidOperand s.params msg.toNat mlen.toNat ∧ ValidOperand s.params out.toNat s.alg.outSize ∧
          2 ^ 61 ≤ s.alg.blockSize + mlen.toNat) ∧
      ∀ r, exec (.hmac out key klen msg mlen) s = .refused r → r ∈ [Refusal.operandRange, .messageTooLong])

/-! ### The whole machine -/

/-- Nothing without a value is ever used (10_state.md R31, R35, R36, 40_hash_commands.md R99): from two states that agree
on everything that has a value, a step answers the same refusal or two states that agree again, host memory and the
response included. So neither a stale buffer byte, nor a register's reset value, nor what `FINAL` or `HMAC` left behind
reaches a digest. -/
def Obligations.ValuelessFieldsNeverMatter : Prop :=
  ∀ s t : State, s.Inv → t.Inv → SameValues s t → SameOutcome (step s) (step t)

/-- Chunking invariance at the port (10_state.md R37, 95_test_vectors.md V2): two `ABSORB` commands on adjacent operands
leave exactly the state one `ABSORB` of both leaves. -/
def Obligations.TwoAbsorbsAreOne : Prop :=
  ∀ (s : State) (addr len1 len2 : Word64), s.Inv → s.phase = .active → len1.toNat + len2.toNat < 2 ^ 64 →
    ValidOperand s.params addr.toNat (len1.toNat + len2.toNat) →
    s.ctx.count.toNat + 8 * (len1.toNat + len2.toNat) < 2 ^ 64 →
    ∃ u t, exec (.absorb addr len1) s = .next u ∧ exec (.absorb (addr + len1) len2) u = .next t ∧
      exec (.absorb addr (len1 + len2)) s = .next t

/-- 30_encoding.md R82 with R100: the three packets of the pseudo-instruction `HASH out, addr, len`, presented one after
another in any phase, write `Hash` of the `len` bytes at `addr` to `out`, change no other byte, and leave the context
`FINALIZED`; `out` may overlap the message. -/
def Obligations.HashPseudoInstruction : Prop :=
  ∀ (s : State) (out addr len : Word64) (rest : List HostInput), s.Inv →
    s.host = (Instr.hashPseudo out addr len).map (fun i => HostInput.packet (encode i)) ++ rest →
    (∀ i ∈ Instr.hashPseudo out addr len, i.wf s.params.aw = true) →
    ValidOperand s.params addr.toNat len.toNat → ValidOperand s.params out.toNat s.alg.outSize →
    len.toNat < 2 ^ 61 →
    ∃ t, Host.Core.run Sys2Proof.core 3 s = .next t ∧
      Memory.readBytes t.mem out.toNat s.alg.outSize =
        hashOf (familyOf s.alg) (Memory.readBytes s.mem addr.toNat len.toNat) ∧
      (∀ c, ¬ inBytes out.toNat s.alg.outSize c → Memory.get t.mem c = Memory.get s.mem c) ∧
      t.phase = .finalized ∧ t.rsp = [0x0000000000000000] ∧ t.host = rest
end

