-- ==== Sys2Proof/Laws/State.lean ====
section
/-! SUPPORT. One lemma per field per update of the state, so that no later proof unfolds a record update; the shape of the
chaining state of each `ALG`. -/

namespace Sys2Proof.Machine

/-! ### `State.respond` -/

@[simp] theorem respond_params (s : State) (c : Status) : (s.respond c).params = s.params := rfl
@[simp] theorem respond_ctx (s : State) (c : Status) : (s.respond c).ctx = s.ctx := rfl
@[simp] theorem respond_phase (s : State) (c : Status) : (s.respond c).phase = s.phase := rfl
@[simp] theorem respond_scr (s : State) (c : Status) : (s.respond c).scr = s.scr := rfl
@[simp] theorem respond_mem (s : State) (c : Status) : (s.respond c).mem = s.mem := rfl
@[simp] theorem respond_scratchAvail (s : State) (c : Status) : (s.respond c).scratchAvail = s.scratchAvail := rfl
@[simp] theorem respond_rsp (s : State) (c : Status) : (s.respond c).rsp = [statusWord c] := rfl
@[simp] theorem respond_host (s : State) (c : Status) : (s.respond c).host = s.host := rfl
@[simp] theorem respond_draws (s : State) (c : Status) : (s.respond c).draws = s.draws := rfl
@[simp] theorem respond_alg (s : State) (c : Status) : (s.respond c).alg = s.alg := rfl

/-! ### The chaining state of each `ALG` -/

@[simp] theorem ofWords_alg (a : Alg) (f : Nat → Word64) : (Chain.ofWords a f).alg = a := by cases a <;> rfl
@[simp] theorem zero_alg (a : Alg) : (Chain.zero a).alg = a := ofWords_alg a _
@[simp] theorem ivOf_alg (a : Alg) : (ivOf a).alg = a := by cases a <;> rfl
@[simp] theorem compressChain_alg (h : Chain) (blk : List Byte) : (compressChain h blk).alg = h.alg := by
  cases h <;> simp only [compressChain, Chain.alg]

@[simp] theorem familyOf_blockSize (a : Alg) : (familyOf a).blockSize = a.blockSize := rfl
@[simp] theorem familyOf_lenFieldSize (a : Alg) : (familyOf a).lenFieldSize = a.lenFieldSize := rfl
@[simp] theorem familyOf_iv (a : Alg) : (familyOf a).iv = ivOf a := rfl
@[simp] theorem familyOf_compress (a : Alg) : (familyOf a).compress = compressChain := rfl
@[simp] theorem familyOf_lenField (a : Alg) : (familyOf a).lenField = lenFieldOf a := rfl
@[simp] theorem familyOf_serialize (a : Alg) : (familyOf a).serialize = serializeChain := rfl

theorem blockSize_pos (a : Alg) : 0 < a.blockSize := by cases a <;> decide
theorem lenFieldSize_lt (a : Alg) : a.lenFieldSize < a.blockSize := by cases a <;> decide
theorem lenFieldSize_pos (a : Alg) : 0 < a.lenFieldSize := by cases a <;> decide
theorem blockSize_le (a : Alg) : a.blockSize ≤ 128 := by cases a <;> decide

/-- The length field is `LENF` bytes long for every length (R127, R149, R180). -/
@[simp] theorem lenFieldOf_length (a : Alg) (l : Word64) : (lenFieldOf a l).length = a.lenFieldSize := by cases a <;> rfl

/-- A digest is `OUT` bytes long (R8, R128, R150, R180, R184). -/
@[simp] theorem serializeChain_length (h : Chain) : (serializeChain h).length = h.alg.outSize := by cases h <;> rfl

/-! ### Contexts that hold no value -/

@[simp] theorem spentCtx_alg (a : Alg) (d : Nat) : (spentCtx a d).h.alg = a := ofWords_alg a _
theorem spentCtx_shape (a : Alg) (d : Nat) : CtxShape a (spentCtx a d) :=
  ⟨spentCtx_alg a d, by simp [spentCtx], Nat.mod_lt _ (blockSize_pos a)⟩
theorem atReset_shape (a : Alg) : CtxShape a (HashCtx.atReset a) :=
  ⟨zero_alg a, by simp [HashCtx.atReset], blockSize_pos a⟩
@[simp] theorem atReset_alg (a : Alg) : (HashCtx.atReset a).h.alg = a := zero_alg a
@[simp] theorem spentScratch_ctx (a : Alg) (d : Nat) : (spentScratch a d).ctx = spentCtx a d := rfl
@[simp] theorem spentScratch_kb_length (a : Alg) (d : Nat) : (spentScratch a d).kb.length = a.blockSize := by
  simp [spentScratch]
@[simp] theorem spentScratch_idig_length (a : Alg) (d : Nat) : (spentScratch a d).idig.length = a.outSize := by
  simp [spentScratch]

/-! ### `engineReset` and `scrambleBytes` -/

@[simp] theorem engineReset_params (s : State) : (engineReset s).params = s.params := rfl
@[simp] theorem engineReset_ctx (s : State) : (engineReset s).ctx = spentCtx s.alg s.draws := rfl
@[simp] theorem engineReset_phase (s : State) : (engineReset s).phase = .uninit := rfl
@[simp] theorem engineReset_scr (s : State) : (engineReset s).scr = spentScratch s.alg (s.draws + 1) := rfl
@[simp] theorem engineReset_mem (s : State) : (engineReset s).mem = s.mem := rfl
@[simp] theorem engineReset_scratchAvail (s : State) : (engineReset s).scratchAvail = s.scratchAvail := rfl
@[simp] theorem engineReset_rsp (s : State) : (engineReset s).rsp = [] := rfl
@[simp] theorem engineReset_host (s : State) : (engineReset s).host = s.host := rfl
@[simp] theorem engineReset_draws (s : State) : (engineReset s).draws = s.draws + 2 := rfl
@[simp] theorem engineReset_alg (s : State) : (engineReset s).alg = s.alg := spentCtx_alg _ _

@[simp] theorem scrambleBytes_params (n k : Nat) (s : State) : (scrambleBytes n k s).params = s.params := rfl
@[simp] theorem scrambleBytes_ctx (n k : Nat) (s : State) : (scrambleBytes n k s).ctx = s.ctx := rfl
@[simp] theorem scrambleBytes_phase (n k : Nat) (s : State) : (scrambleBytes n k s).phase = s.phase := rfl
@[simp] theorem scrambleBytes_scr (n k : Nat) (s : State) : (scrambleBytes n k s).scr = s.scr := rfl
@[simp] theorem scrambleBytes_mem (n k : Nat) (s : State) : (scrambleBytes n k s).mem =
    Memory.writeBytes s.mem n ((List.range k).map (Config.freeByte s.draws)) := rfl
@[simp] theorem scrambleBytes_scratchAvail (n k : Nat) (s : State) :
    (scrambleBytes n k s).scratchAvail = s.scratchAvail := rfl
@[simp] theorem scrambleBytes_rsp (n k : Nat) (s : State) : (scrambleBytes n k s).rsp = s.rsp := rfl
@[simp] theorem scrambleBytes_host (n k : Nat) (s : State) : (scrambleBytes n k s).host = s.host := rfl
@[simp] theorem scrambleBytes_draws (n k : Nat) (s : State) : (scrambleBytes n k s).draws = s.draws + 1 := rfl
@[simp] theorem scrambleBytes_alg (n k : Nat) (s : State) : (scrambleBytes n k s).alg = s.alg := rfl

/-! ### `State.withFetchWord` -/

@[simp] theorem withFetchWord_host (s : State) (n w : Nat) :
    (s.withFetchWord n w).host = .packet (packetOfBits (w % 2 ^ n)) :: s.host := rfl
@[simp] theorem withFetchWord_params (s : State) (n w : Nat) : (s.withFetchWord n w).params = s.params := rfl
@[simp] theorem withFetchWord_rest (s : State) (n w : Nat) : { s.withFetchWord n w with host := s.host } = s := rfl

end Sys2Proof.Machine
end

