-- ==== Sys2Proof/Laws/Buffering.lean ====
section
/-! SUPPORT. The laws of the buffering engine and the padding machine: everything they do is a sequence of `pushByte`
steps, and one such step says the rest. -/

namespace Sys2Proof.Machine

section
variable {χ : Type} (fam : Family χ)

/-! ### One byte -/

@[simp] theorem pushByte_count (x : HashCtx χ) (v : Byte) : (pushByte fam x v).count = x.count := by
  unfold pushByte; dsimp only; split <;> rfl

@[simp] theorem pushByte_buf (x : HashCtx χ) (v : Byte) : (pushByte fam x v).buf = x.buf.set x.fill v := by
  unfold pushByte; dsimp only; split <;> rfl

/-- A byte that does not fill the block is only buffered (R96). -/
theorem pushByte_buffers {x : HashCtx χ} (v : Byte) (h : x.fill + 1 ≠ fam.blockSize) :
    pushByte fam x v = { x with buf := x.buf.set x.fill v, fill := x.fill + 1 } := by
  simp [pushByte, h]

/-- A byte that fills the block is compressed with the block, and the block is empty again (R96). -/
theorem pushByte_compresses {x : HashCtx χ} (v : Byte) (h : x.fill + 1 = fam.blockSize) :
    pushByte fam x v =
      { x with h := fam.compress x.h (x.buf.set x.fill v), buf := x.buf.set x.fill v, fill := 0 } := by
  simp [pushByte, h]

theorem pushByte_fill {x : HashCtx χ} (v : Byte) (h : x.fill < fam.blockSize) :
    (pushByte fam x v).fill = (x.fill + 1) % fam.blockSize := by
  by_cases hb : x.fill + 1 = fam.blockSize
  · rw [pushByte_compresses fam v hb, hb, Nat.mod_self]
  · rw [pushByte_buffers fam v hb, Nat.mod_eq_of_lt (by omega)]

/-! ### Byte sequences -/

@[simp] theorem foldl_pushByte_count (x : HashCtx χ) (s : List Byte) :
    (s.foldl (pushByte fam) x).count = x.count := by
  induction s generalizing x with
  | nil => rfl
  | cons v s ih => simp [ih]

@[simp] theorem foldl_pushByte_buf_length (x : HashCtx χ) (s : List Byte) :
    (s.foldl (pushByte fam) x).buf.length = x.buf.length := by
  induction s generalizing x with
  | nil => rfl
  | cons v s ih => simp [ih]

theorem foldl_pushByte_fill {x : HashCtx χ} (s : List Byte) (h : x.fill < fam.blockSize) :
    (s.foldl (pushByte fam) x).fill = (x.fill + s.length) % fam.blockSize := by
  induction s generalizing x with
  | nil => simp [Nat.mod_eq_of_lt h]
  | cons v s ih =>
    have hp := pushByte_fill fam v h
    rw [List.foldl_cons, ih (by rw [hp]; exact Nat.mod_lt _ (by omega)), hp, Nat.mod_add_mod, List.length_cons]
    congr 1; omega

theorem splice_nil (buf : List Byte) (pos : Nat) : splice buf pos [] = buf := by simp [splice]

theorem splice_cons {buf : List Byte} {pos : Nat} (v : Byte) (s : List Byte) (h : pos < buf.length) :
    splice buf pos (v :: s) = splice (buf.set pos v) (pos + 1) s := by
  have ht : (buf.set pos v).take (pos + 1) = buf.take pos ++ [v] := by
    rw [List.take_add_one, List.take_set_of_le (Nat.le_refl pos)]
    simp [h]
  have hd : (buf.set pos v).drop (pos + 1 + s.length) = buf.drop (pos + (s.length + 1)) := by
    rw [List.drop_set_of_lt (by omega)]; congr 1; omega
  simp [splice, ht, hd]

@[simp] theorem splice_length {buf : List Byte} {pos : Nat} {s : List Byte} (h : pos + s.length ≤ buf.length) :
    (splice buf pos s).length = buf.length := by
  simp [splice]; omega

/-- Bytes that do not fill the block are only buffered. -/
theorem foldl_pushByte_buffers {x : HashCtx χ} (s : List Byte) (hx : x.buf.length = fam.blockSize)
    (h : x.fill + s.length < fam.blockSize) :
    s.foldl (pushByte fam) x = { x with buf := splice x.buf x.fill s, fill := x.fill + s.length } := by
  induction s generalizing x with
  | nil => simp [splice_nil]
  | cons v s ih =>
    simp only [List.length_cons] at h
    rw [List.foldl_cons, pushByte_buffers fam v (by omega), ih (by simpa using hx) (by simp; omega)]
    simp only [List.length_cons, splice_cons v s (by omega : x.fill < x.buf.length), HashCtx.mk.injEq, true_and]
    omega

/-- Bytes that fill the block exactly run one compression on it. -/
theorem foldl_pushByte_compresses {x : HashCtx χ} (s : List Byte) (hx : x.buf.length = fam.blockSize)
    (hf : x.fill < fam.blockSize) (h : x.fill + s.length = fam.blockSize) :
    s.foldl (pushByte fam) x =
      { x with h := fam.compress x.h (splice x.buf x.fill s), buf := splice x.buf x.fill s, fill := 0 } := by
  induction s generalizing x with
  | nil => simp at h; omega
  | cons v s ih =>
    simp only [List.length_cons] at h
    have hs := splice_cons v s (by omega : x.fill < x.buf.length)
    rw [List.foldl_cons]
    by_cases hb : x.fill + 1 = fam.blockSize
    · have hn : s = [] := List.eq_nil_of_length_eq_zero (by omega)
      subst hn
      rw [pushByte_compresses fam v hb, hs, splice_nil, List.foldl_nil]
    · rw [pushByte_buffers fam v hb, ih (by simpa using hx) (by simp; omega) (by simp; omega), hs]

/-- The absorb loop pushes its input byte by byte (R94, R96). -/
theorem absorbLoop_eq_foldl {x : HashCtx χ} (fuel : Nat) (s : List Byte) (hx : x.buf.length = fam.blockSize)
    (hf : x.fill < fam.blockSize) (hfuel : (x.fill + s.length) / fam.blockSize < fuel) :
    absorbLoop fam fuel x s = s.foldl (pushByte fam) x := by
  induction fuel generalizing x s with
  | zero => exact absurd hfuel (Nat.not_lt_zero _)
  | succ fuel ih =>
    rw [absorbLoop]
    by_cases hle : fam.blockSize ≤ x.fill + s.length
    · have hk : (s.take (fam.blockSize - x.fill)).length = fam.blockSize - x.fill := by simp; omega
      have hlen : (splice x.buf x.fill (s.take (fam.blockSize - x.fill))).length = fam.blockSize := by
        rw [splice_length (by omega), hx]
      rw [if_pos hle]
      conv_rhs => rw [← List.take_append_drop (fam.blockSize - x.fill) s, List.foldl_append,
        foldl_pushByte_compresses fam (s.take (fam.blockSize - x.fill)) hx hf (by omega)]
      refine ih (x := { x with h := _, buf := _, fill := 0 }) _ hlen (by dsimp only; omega) ?_
      have : (x.fill + s.length - fam.blockSize) / fam.blockSize = (x.fill + s.length) / fam.blockSize - 1 :=
        Nat.sub_mul_div (x.fill + s.length) fam.blockSize 1 |> (by simpa using ·)
      simp only [List.length_drop]
      rw [show 0 + (s.length - (fam.blockSize - x.fill)) = x.fill + s.length - fam.blockSize by omega, this]
      have := Nat.div_pos hle (by omega)
      omega
    · rw [if_neg hle, foldl_pushByte_buffers fam s hx (by omega)]

/-- `AbsorbBytes`: the counter once, then every byte pushed (R93, R94). -/
theorem absorbBytes_eq_foldl {x : HashCtx χ} (s : List Byte) (hx : x.buf.length = fam.blockSize)
    (hf : x.fill < fam.blockSize) :
    absorbBytes fam x s =
      s.foldl (pushByte fam) { x with count := x.count + BitVec.ofNat 64 (8 * s.length) } :=
  absorbLoop_eq_foldl fam _ s hx hf (by dsimp only; omega)

@[simp] theorem absorbLoop_count (fuel : Nat) (x : HashCtx χ) (s : List Byte) :
    (absorbLoop fam fuel x s).count = x.count := by
  induction fuel generalizing x s with
  | zero => rfl
  | succ fuel ih => rw [absorbLoop]; split <;> simp [ih]

/-! ### Padding -/

/-- How many zero bytes `PAD_ZERO` appends from fill `r` on. -/
theorem padZero_eq_foldl {x : HashCtx χ} (fuel : Nat) (hB : fam.lenFieldSize < fam.blockSize)
    (hl : 0 < fam.lenFieldSize) (hf : x.fill < fam.blockSize)
    (hfuel : (2 * fam.blockSize - fam.lenFieldSize - x.fill) % fam.blockSize ≤ fuel) :
    padZero fam fuel x =
      (List.replicate ((2 * fam.blockSize - fam.lenFieldSize - x.fill) % fam.blockSize) 0x00).foldl
        (pushByte fam) x := by
  induction fuel generalizing x with
  | zero => rw [Nat.le_zero.1 hfuel]; rfl
  | succ fuel ih =>
    rw [padZero]
    by_cases h : x.fill = fam.blockSize - fam.lenFieldSize
    · rw [if_pos h, h, show 2 * fam.blockSize - fam.lenFieldSize - (fam.blockSize - fam.lenFieldSize) = fam.blockSize by omega,
        Nat.mod_self]
      rfl
    · have hp := pushByte_fill fam 0x00 hf
      have hp' : (pushByte fam x 0x00).fill < fam.blockSize := by rw [hp]; exact Nat.mod_lt _ (by omega)
      have hz : (2 * fam.blockSize - fam.lenFieldSize - x.fill) % fam.blockSize =
          (2 * fam.blockSize - fam.lenFieldSize - (pushByte fam x 0x00).fill) % fam.blockSize + 1 := by
        by_cases hw : x.fill + 1 = fam.blockSize
        · rw [hp, hw, Nat.mod_self, show 2 * fam.blockSize - fam.lenFieldSize - x.fill =
            fam.blockSize - fam.lenFieldSize + 1 by omega, Nat.mod_eq_of_lt (by omega),
            show 2 * fam.blockSize - fam.lenFieldSize - 0 = fam.blockSize - fam.lenFieldSize + fam.blockSize by omega,
            Nat.add_mod_right, Nat.mod_eq_of_lt (by omega)]
        · rw [hp, Nat.mod_eq_of_lt (show x.fill + 1 < fam.blockSize by omega)]
          by_cases hlt : x.fill < fam.blockSize - fam.lenFieldSize
          · rw [show 2 * fam.blockSize - fam.lenFieldSize - x.fill =
              (fam.blockSize - fam.lenFieldSize - x.fill) + fam.blockSize by omega, Nat.add_mod_right,
              Nat.mod_eq_of_lt (by omega), show 2 * fam.blockSize - fam.lenFieldSize - (x.fill + 1) =
              (fam.blockSize - fam.lenFieldSize - x.fill - 1) + fam.blockSize by omega, Nat.add_mod_right,
              Nat.mod_eq_of_lt (by omega)]
            omega
          · rw [Nat.mod_eq_of_lt (by omega), Nat.mod_eq_of_lt (by omega)]
            omega
      rw [if_neg h, ih hp' (by omega), hz, List.replicate_succ, List.foldl_cons]

/-- `Finalize` pushes the marker, the zeros and the length field (R97). -/
theorem padCtx_eq_foldl {x : HashCtx χ} (hB : fam.lenFieldSize < fam.blockSize) (hl : 0 < fam.lenFieldSize)
    (hf : x.fill < fam.blockSize) :
    padCtx fam x =
      ([0x80] ++ List.replicate (zeroCount fam x.fill) 0x00 ++ fam.lenField x.count).foldl (pushByte fam) x := by
  have hp := pushByte_fill fam 0x80 hf
  have hp' : (pushByte fam x 0x80).fill < fam.blockSize := by rw [hp]; exact Nat.mod_lt _ (by omega)
  have hz : (2 * fam.blockSize - fam.lenFieldSize - (pushByte fam x 0x80).fill) % fam.blockSize =
      zeroCount fam x.fill := by
    rw [zeroCount, Nat.mod_eq_of_lt hf, hp]
    by_cases hw : x.fill + 1 = fam.blockSize
    · rw [hw, Nat.mod_self, show 2 * fam.blockSize - fam.lenFieldSize - 0 =
        (fam.blockSize - fam.lenFieldSize) + fam.blockSize by omega, Nat.add_mod_right]
      congr 1; omega
    · rw [Nat.mod_eq_of_lt (show x.fill + 1 < fam.blockSize by omega)]
      congr 1; omega
  rw [padCtx, padZero_eq_foldl fam fam.blockSize hB hl hp'
    (Nat.le_of_lt (Nat.mod_lt _ (by omega))), hz, List.foldl_append, List.foldl_append]
  rfl

end

/-! ### The families of the instances -/

@[simp] theorem pushByte_alg (a : Alg) (x : HashCtx Chain) (v : Byte) :
    (pushByte (familyOf a) x v).h.alg = x.h.alg := by
  unfold pushByte; dsimp only; split <;> simp

@[simp] theorem foldl_pushByte_alg (a : Alg) (x : HashCtx Chain) (s : List Byte) :
    (s.foldl (pushByte (familyOf a)) x).h.alg = x.h.alg := by
  induction s generalizing x with
  | nil => rfl
  | cons v s ih => simp [ih]

/-- `InitCtx` gives a context of the instance's shape, whatever the context held, if its buffer has its size (R92). -/
theorem initCtx_shape {a : Alg} {x : HashCtx Chain} (h : x.buf.length = a.blockSize) :
    CtxShape a (initCtx (familyOf a) x) :=
  ⟨ivOf_alg a, h, blockSize_pos a⟩

/-- Pushing bytes keeps the shape (R24). -/
theorem foldl_pushByte_shape {a : Alg} {x : HashCtx Chain} (h : CtxShape a x) (s : List Byte) :
    CtxShape a (s.foldl (pushByte (familyOf a)) x) :=
  ⟨by simpa using h.alg, by simpa using h.buf, by
    rw [foldl_pushByte_fill (familyOf a) s h.fill]; exact Nat.mod_lt _ (blockSize_pos a)⟩

/-- `AbsorbBytes` keeps the shape (R24). -/
theorem absorbBytes_shape {a : Alg} {x : HashCtx Chain} (h : CtxShape a x) (s : List Byte) :
    CtxShape a (absorbBytes (familyOf a) x s) := by
  rw [absorbBytes_eq_foldl (familyOf a) s h.buf h.fill]
  exact foldl_pushByte_shape (x := { x with count := x.count + BitVec.ofNat 64 (8 * s.length) }) ⟨h.alg, h.buf, h.fill⟩ s

/-- `Finalize` keeps the shape of the context it pads (R97). -/
theorem padCtx_shape {a : Alg} {x : HashCtx Chain} (h : CtxShape a x) : CtxShape a (padCtx (familyOf a) x) := by
  rw [padCtx_eq_foldl (familyOf a) (lenFieldSize_lt a) (lenFieldSize_pos a) h.fill]
  exact foldl_pushByte_shape h _

/-- The digest of a context of the instance is `OUT` bytes long (R8). -/
theorem finalize_length {a : Alg} {x : HashCtx Chain} (h : CtxShape a x) :
    (finalize (familyOf a) x).length = a.outSize := by
  show (serializeChain (padCtx (familyOf a) x).h).length = a.outSize
  rw [serializeChain_length, (padCtx_shape h).alg]

end Sys2Proof.Machine
end

