-- ==== Sys2Proof/Laws/Decode.lean ====
section
/-! SUPPORT. Small laws of the decoder and the encoder's field functions. -/

namespace Sys2Proof

/-- The wellformedness check answers the command it was given, or none. -/
theorem checked_eq_command {aw : Nat} {i j : Instr} :
    Instr.checked aw i = .command j ↔ i.wf aw = true ∧ j = i := by
  unfold Instr.checked
  split
  · next h => simp [h, eq_comm]
  · next h => simp [h]

@[simp] theorem checked_of_wf {aw : Nat} {i : Instr} (h : i.wf aw = true) : Instr.checked aw i = .command i := by
  simp [Instr.checked, h]

/-- A word is its low byte and the rest (R72). -/
theorem word_fields (w : Word64) : w.toNat = 256 * (rsvdField w).toNat + (opcodeField w).toNat := by
  have := w.isLt
  simp only [rsvdField, opcodeField, BitVec.extractLsb'_toNat, Nat.shiftRight_eq_div_pow]
  omega

/-- With the reserved field zero, the command word is its opcode (R72). -/
theorem word_of_opcode {w : Word64} (h : rsvdField w = 0) : w.toNat = (opcodeField w).toNat := by
  have := word_fields w
  rw [h] at this
  simpa using this

@[simp] theorem wordBytes_length (w : Word64) : (wordBytes w).length = 8 := by simp [wordBytes]

end Sys2Proof
end

