-- ==== Sys2Proof/Laws/Memory.lean ====
section
/-! SUPPORT. The laws of host memory: a write is read back, leaves every other byte alone and keeps the canonical form. -/

namespace Sys2Proof.Machine

/-- Below the first address a canonical memory lists nothing. -/
theorem get_of_lt {m : Memory} {lo a : Nat} (h : Memory.wfFrom lo m = true) (ha : a < lo) :
    Memory.get m a = Config.unwrittenByte := by
  induction m generalizing lo with
  | nil => rfl
  | cons c m ih =>
    obtain ⟨k, v⟩ := c
    simp only [Memory.wfFrom, Bool.and_eq_true, decide_eq_true_eq] at h
    have hk : k ≠ a := by omega
    simp only [Memory.get, hk, if_false]
    exact ih h.2 (by omega)

/-- A write leaves every other byte alone. -/
theorem get_put_other (m : Memory) {a c : Nat} (b : Byte) (h : a ≠ c) :
    Memory.get (Memory.put m a b) c = Memory.get m c := by
  induction m with
  | nil => by_cases hb : b = Config.unwrittenByte <;> simp [Memory.put, Memory.get, hb, h]
  | cons x m ih =>
    obtain ⟨k, v⟩ := x
    by_cases hlt : a < k
    · by_cases hb : b = Config.unwrittenByte <;> simp [Memory.put, Memory.get, hlt, hb, h]
    · by_cases hak : a = k
      · subst hak
        by_cases hb : b = Config.unwrittenByte <;> simp [Memory.put, Memory.get, hb, h]
      · simp only [Memory.put, hlt, hak, if_false, Memory.get, ih]

/-- A byte written is read back. -/
theorem get_put_same {m : Memory} {lo : Nat} (a : Nat) (b : Byte) (h : Memory.wfFrom lo m = true) :
    Memory.get (Memory.put m a b) a = b := by
  induction m generalizing lo with
  | nil => by_cases hb : b = Config.unwrittenByte <;> simp [Memory.put, Memory.get, hb]
  | cons x m ih =>
    obtain ⟨k, v⟩ := x
    simp only [Memory.wfFrom, Bool.and_eq_true, decide_eq_true_eq] at h
    by_cases hlt : a < k
    · by_cases hb : b = Config.unwrittenByte
      · have hk : k ≠ a := by omega
        simp only [Memory.put, hlt, hb, if_true, Memory.get, hk, if_false]
        exact get_of_lt h.2 (by omega)
      · simp [Memory.put, Memory.get, hlt, hb]
    · by_cases hak : a = k
      · subst hak
        by_cases hb : b = Config.unwrittenByte
        · simp only [Memory.put, lt_irrefl, if_false, if_true, hb]
          exact get_of_lt h.2 (by omega)
        · simp [Memory.put, Memory.get, hb]
      · have hk : k ≠ a := fun e => hak e.symm
        simp only [Memory.put, hlt, hak, if_false, Memory.get, hk]
        exact ih h.2

/-- A memory that rises from `lo` on rises from every lower bound on. -/
theorem wfFrom_mono {m : Memory} {lo lo' : Nat} (h : Memory.wfFrom lo m = true) (hl : lo' ≤ lo) :
    Memory.wfFrom lo' m = true := by
  cases m with
  | nil => rfl
  | cons x m =>
    obtain ⟨k, v⟩ := x
    simp only [Memory.wfFrom, Bool.and_eq_true, decide_eq_true_eq] at h ⊢
    exact ⟨⟨by omega, h.1.2⟩, h.2⟩

/-- A write keeps the canonical form. -/
theorem wfFrom_put {m : Memory} {lo a : Nat} (b : Byte) (h : Memory.wfFrom lo m = true) (ha : lo ≤ a) :
    Memory.wfFrom lo (Memory.put m a b) = true := by
  induction m generalizing lo with
  | nil => by_cases hb : b = Config.unwrittenByte <;> simp [Memory.put, Memory.wfFrom, hb, ha]
  | cons x m ih =>
    obtain ⟨k, v⟩ := x
    have h' := h
    simp only [Memory.wfFrom, Bool.and_eq_true, decide_eq_true_eq] at h
    by_cases hlt : a < k
    · by_cases hb : b = Config.unwrittenByte
      · simpa [Memory.put, hlt, hb] using h'
      · simp only [Memory.put, hlt, hb, if_true, if_false, Memory.wfFrom, Bool.and_eq_true, decide_eq_true_eq]
        exact ⟨⟨ha, hb⟩, ⟨by omega, h.1.2⟩, h.2⟩
    · by_cases hak : a = k
      · subst hak
        by_cases hb : b = Config.unwrittenByte
        · simp only [Memory.put, lt_irrefl, if_false, if_true, hb]
          exact wfFrom_mono h.2 (by omega)
        · simp only [Memory.put, lt_irrefl, if_false, if_true, hb, Memory.wfFrom, Bool.and_eq_true, decide_eq_true_eq]
          exact ⟨⟨ha, hb⟩, h.2⟩
      · simp only [Memory.put, hlt, hak, if_false, Memory.wfFrom, Bool.and_eq_true, decide_eq_true_eq]
        exact ⟨h.1, ih h.2 (by omega)⟩

theorem wf_put {m : Memory} (a : Nat) (b : Byte) (h : Memory.wf m = true) : Memory.wf (Memory.put m a b) = true :=
  wfFrom_put b h (Nat.zero_le a)

/-- A write lists no address but its own beside those listed before. -/
theorem mem_put {m : Memory} {a : Nat} {b : Byte} {c : Host.Cell} (h : c ∈ Memory.put m a b) : c ∈ m ∨ c.1 = a := by
  induction m with
  | nil => by_cases hb : b = Config.unwrittenByte <;> simp_all [Memory.put]
  | cons x m ih =>
    obtain ⟨k, v⟩ := x
    by_cases hlt : a < k
    · by_cases hb : b = Config.unwrittenByte
      · simp only [Memory.put, hlt, hb, if_true] at h; exact .inl h
      · simp only [Memory.put, hlt, hb, if_true, if_false, List.mem_cons] at h
        rcases h with rfl | h
        · exact .inr rfl
        · exact .inl (List.mem_cons.2 h)
    · by_cases hak : a = k
      · subst hak
        by_cases hb : b = Config.unwrittenByte
        · simp only [Memory.put, lt_irrefl, if_false, if_true, hb] at h; exact .inl (List.mem_cons_of_mem _ h)
        · simp only [Memory.put, lt_irrefl, if_false, if_true, hb, List.mem_cons] at h
          rcases h with rfl | h
          · exact .inr rfl
          · exact .inl (List.mem_cons_of_mem _ h)
      · simp only [Memory.put, hlt, hak, if_false, List.mem_cons] at h
        rcases h with rfl | h
        · exact .inl List.mem_cons_self
        · exact (ih h).imp (List.mem_cons_of_mem _) id

/-! ### Byte sequences -/

@[simp] theorem readBytes_length (m : Memory) (a n : Nat) : (Memory.readBytes m a n).length = n := by
  induction n generalizing a with
  | zero => rfl
  | succ n ih => simp [Memory.readBytes, ih]

/-- Byte `i` of a read is the byte at the `i`-th address (R13). -/
theorem readBytes_getElem? (m : Memory) (a n i : Nat) (h : i < n) :
    (Memory.readBytes m a n)[i]? = some (Memory.get m (a + i)) := by
  induction n generalizing a i with
  | zero => omega
  | succ n ih =>
    cases i with
    | zero => simp [Memory.readBytes]
    | succ i =>
      simp only [Memory.readBytes, List.getElem?_cons_succ]
      rw [ih (a + 1) i (by omega), show a + 1 + i = a + (i + 1) by omega]

theorem readBytes_append (m : Memory) (a n k : Nat) :
    Memory.readBytes m a (n + k) = Memory.readBytes m a n ++ Memory.readBytes m (a + n) k := by
  induction n generalizing a with
  | zero => simp [Memory.readBytes]
  | succ n ih =>
    rw [show n + 1 + k = n + k + 1 by omega]
    simp only [Memory.readBytes, List.cons_append, ih, show a + 1 + n = a + (n + 1) by omega]

theorem readBytes_congr {m m' : Memory} {a n : Nat} (h : ∀ i < n, Memory.get m (a + i) = Memory.get m' (a + i)) :
    Memory.readBytes m a n = Memory.readBytes m' a n := by
  induction n generalizing a with
  | zero => rfl
  | succ n ih =>
    simp only [Memory.readBytes]
    rw [ih fun i hi => by have := h (i + 1) (by omega); rwa [show a + (i + 1) = a + 1 + i by omega] at this]
    rw [show Memory.get m a = Memory.get m' a from h 0 (by omega)]

/-- Writing a byte sequence leaves every byte outside it alone. -/
theorem get_writeBytes_outside (m : Memory) (a : Nat) (bs : List Byte) {c : Nat} (h : ¬ inBytes a bs.length c) :
    Memory.get (Memory.writeBytes m a bs) c = Memory.get m c := by
  induction bs generalizing m a with
  | nil => rfl
  | cons b bs ih =>
    simp only [inBytes, List.length_cons] at h
    have hne : a ≠ c := by omega
    rw [Memory.writeBytes, ih _ _ (by simp only [inBytes]; omega), get_put_other m b hne]

theorem wf_writeBytes {m : Memory} (a : Nat) (bs : List Byte) (h : Memory.wf m = true) :
    Memory.wf (Memory.writeBytes m a bs) = true := by
  induction bs generalizing m a with
  | nil => exact h
  | cons b bs ih => exact ih (a + 1) (wf_put a b h)

/-- The bytes of a sequence written are read back, each at its address. -/
theorem get_writeBytes_inside {m : Memory} (a : Nat) (bs : List Byte) (h : Memory.wf m = true) {i : Nat} :
    i < bs.length → some (Memory.get (Memory.writeBytes m a bs) (a + i)) = bs[i]? := by
  induction bs generalizing m a i with
  | nil => intro hi; simp at hi
  | cons b bs ih =>
    intro hi
    cases i with
    | zero =>
      rw [Memory.writeBytes, get_writeBytes_outside _ _ _ (by simp only [inBytes]; omega)]
      simp [get_put_same a b h]
    | succ i =>
      rw [Memory.writeBytes, show a + (i + 1) = a + 1 + i by omega,
        ih (a + 1) (wf_put a b h) (by simpa using hi)]
      simp

theorem readBytes_writeBytes {m : Memory} (a : Nat) (bs : List Byte) (h : Memory.wf m = true) :
    Memory.readBytes (Memory.writeBytes m a bs) a bs.length = bs := by
  apply List.ext_getElem?
  intro i
  by_cases hi : i < bs.length
  · rw [readBytes_getElem? _ _ _ _ hi, get_writeBytes_inside a bs h hi]
  · rw [List.getElem?_eq_none (by simpa using hi), List.getElem?_eq_none (by omega)]

/-- Writing a byte sequence lists no address outside it beside those listed before. -/
theorem mem_writeBytes {m : Memory} {a : Nat} {bs : List Byte} {c : Host.Cell}
    (h : c ∈ Memory.writeBytes m a bs) : c ∈ m ∨ inBytes a bs.length c.1 := by
  induction bs generalizing m a with
  | nil => exact .inl h
  | cons b bs ih =>
    rcases ih h with h | h
    · rcases mem_put h with h | h
      · exact .inl h
      · right; simp only [inBytes, List.length_cons]; omega
    · right; simp only [inBytes, List.length_cons] at *; omega

/-- Host memory at reset is in canonical form. -/
theorem wf_reset (a : Alg) (p : Params) : Memory.wf (State.resetOf a p).mem = true := rfl

end Sys2Proof.Machine
end

