-- ==== Sys2Proof/Laws/Exec.lean ====
section
/-! SUPPORT. Once for every command and every move: what it can answer. Later proofs cite these and unfold no meaning. -/

namespace Sys2Proof.Machine

@[simp] theorem phaseRefusal_active : phaseRefusal .active = none := rfl

theorem phaseRefusal_eq_none {p : Phase} : phaseRefusal p = none ↔ p = .active := by cases p <;> simp [phaseRefusal]

/-- `rangeOk` is R55's "valid operand". -/
theorem rangeOk_iff (p : Params) (addr n : Nat) : p.rangeOk addr n = true ↔ ValidOperand p addr n := by
  unfold Params.rangeOk ValidOperand
  rcases Nat.eq_zero_or_pos n with rfl | hn
  · simp
  · simp only [Nat.pos_iff_ne_zero.1 hn, decide_false, Bool.false_or, Bool.and_eq_true, decide_eq_true_eq,
      List.all_eq_true, Bool.or_eq_true, false_or, Params.memValid, Bool.not_eq_true', Bool.and_eq_false_iff,
      decide_eq_false_iff_not]
    constructor
    · rintro ⟨htop, hholes⟩
      refine ⟨htop, fun i hi => ⟨by omega, fun r hr => ?_⟩⟩
      have := hholes r hr
      omega
    · rintro ⟨htop, hall⟩
      refine ⟨htop, fun r hr => ?_⟩
      by_contra hc
      have hlast := (hall (n - 1) (by omega)).2 r hr
      have hfirst := (hall 0 hn).2 r hr
      have hmid := fun (h : r.lo - addr < n) => (hall (r.lo - addr) h).2 r hr
      omega

/-! ### The commands -/

theorem execInit_eq (s : State) : execInit s =
    .next (State.respond { s with ctx := initCtx (familyOf s.alg) s.ctx, phase := .active } .ok) := rfl

theorem execDesc_eq (s : State) : execDesc s = .next { s with rsp := descResponse s.params s.alg } := rfl

/-- The state `ABSORB` answers when it runs. -/
abbrev absorbed (addr len : Word64) (s : State) : State :=
  State.respond
    { s with ctx := absorbBytes (familyOf s.alg) s.ctx (Memory.readBytes s.mem addr.toNat len.toNat) } .ok

theorem execAbsorb_next {addr len : Word64} {s t : State} (h : execAbsorb addr len s = .next t) :
    s.phase = .active ∧ s.params.rangeOk addr.toNat len.toNat = true ∧
      s.ctx.count.toNat + 8 * len.toNat < 2 ^ 64 ∧ t = absorbed addr len s := by
  unfold execAbsorb at h
  split at h
  · cases h
  · next hp =>
    split at h
    · next hr =>
      split at h
      · next hc => cases h; exact ⟨phaseRefusal_eq_none.1 hp, hr, hc, rfl⟩
      · cases h
    · cases h

theorem execAbsorb_eq {addr len : Word64} {s : State} (hp : s.phase = .active)
    (hr : s.params.rangeOk addr.toNat len.toNat = true) (hc : s.ctx.count.toNat + 8 * len.toNat < 2 ^ 64) :
    execAbsorb addr len s = .next (absorbed addr len s) := by
  rw [execAbsorb, phaseRefusal_eq_none.2 hp]
  exact (if_pos hr).trans (if_pos hc)

/-- The state `FINAL` answers when it runs. -/
abbrev finalized (out : Word64) (s : State) : State :=
  State.respond
    { s with
      mem := Memory.writeBytes s.mem out.toNat (finalize (familyOf s.alg) s.ctx)
      phase := .finalized
      ctx := spentCtx s.alg s.draws
      draws := s.draws + 1 } .ok

theorem execFinal_next {out : Word64} {s t : State} (h : execFinal out s = .next t) :
    s.phase = .active ∧ s.params.rangeOk out.toNat s.alg.outSize = true ∧ t = finalized out s := by
  unfold execFinal at h
  split at h
  · cases h
  · next hp =>
    split at h
    · next hr => cases h; exact ⟨phaseRefusal_eq_none.1 hp, hr, rfl⟩
    · cases h

theorem execFinal_eq {out : Word64} {s : State} (hp : s.phase = .active)
    (hr : s.params.rangeOk out.toNat s.alg.outSize = true) : execFinal out s = .next (finalized out s) := by
  rw [execFinal, phaseRefusal_eq_none.2 hp]
  exact if_pos hr

/-- The state `HMAC` answers when its scratch is granted and it runs. -/
abbrev tagged (out key klen msg mlen : Word64) (s : State) : State :=
  State.respond
    { s with
      mem := Memory.writeBytes s.mem out.toNat
        (hmacTag s.alg s.mem key.toNat klen.toNat msg.toNat mlen.toNat s.scr)
      scr := spentScratch s.alg s.draws
      draws := s.draws + 1 } .ok

theorem execHmac_next {out key klen msg mlen : Word64} {s t : State}
    (h : execHmac out key klen msg mlen s = .next t) :
    (s.scratchAvail = false ∧ t = State.respond s .allocFail) ∨
      (s.scratchAvail = true ∧ s.params.rangeOk key.toNat klen.toNat = true ∧
        s.params.rangeOk msg.toNat mlen.toNat = true ∧ s.params.rangeOk out.toNat s.alg.outSize = true ∧
        s.alg.blockSize + mlen.toNat < 2 ^ 61 ∧ t = tagged out key klen msg mlen s) := by
  unfold execHmac at h
  split at h
  · next ha =>
    split at h
    · next hr =>
      split at h
      · next hc =>
        cases h
        simp only [Bool.and_eq_true] at hr
        exact .inr ⟨ha, hr.1.1, hr.1.2, hr.2, hc, rfl⟩
      · cases h
    · cases h
  · next ha => cases h; exact .inl ⟨by simpa using ha, rfl⟩

theorem execHmac_eq {out key klen msg mlen : Word64} {s : State} (ha : s.scratchAvail = true)
    (hk : s.params.rangeOk key.toNat klen.toNat = true) (hm : s.params.rangeOk msg.toNat mlen.toNat = true)
    (ho : s.params.rangeOk out.toNat s.alg.outSize = true) (hc : s.alg.blockSize + mlen.toNat < 2 ^ 61) :
    execHmac out key klen msg mlen s = .next (tagged out key klen msg mlen s) := by
  have hr : (s.params.rangeOk key.toNat klen.toNat && s.params.rangeOk msg.toNat mlen.toNat
      && s.params.rangeOk out.toNat s.alg.outSize) = true := by rw [hk, hm, ho]; rfl
  exact (if_pos ha).trans ((if_pos hr).trans (if_pos hc))

/-- Without the scratch `HMAC` only answers `ALLOC_FAIL` (R161). -/
theorem execHmac_noScratch {out key klen msg mlen : Word64} {s : State} (ha : s.scratchAvail = false) :
    execHmac out key klen msg mlen s = .next (State.respond s .allocFail) :=
  if_neg (by simp [ha])

/-! ### The pieces of `HMAC` -/

@[simp] theorem maskKey_length (m : Memory) (b key klen : Nat) (p : Byte) : (maskKey m b key klen p).length = b := by
  simp [maskKey]

/-- A hash cycle on a buffer of one block keeps the shape (R163). -/
theorem absorbTwo_shape {a : Alg} {x : HashCtx Chain} (h : x.buf.length = a.blockSize) (s t : List Byte) :
    CtxShape a (absorbTwo (familyOf a) x s t) :=
  absorbBytes_shape (absorbBytes_shape (initCtx_shape h) s) t

/-- The tag is `OUT` bytes long (R160). -/
theorem hmacTag_length {a : Alg} {r : Scratch} (m : Memory) (key klen msg mlen : Nat)
    (h : r.ctx.buf.length = a.blockSize) : (hmacTag a m key klen msg mlen r).length = a.outSize := by
  refine finalize_length (absorbTwo_shape ?_ _ _)
  exact (padCtx_shape (absorbTwo_shape (x := r.ctx) h _ _)).buf

/-! ### The moves -/

theorem hostStore_next {addr : Nat} {v : Byte} {s t : State} (h : hostStore addr v s = .next t) :
    s.params.memValid addr = true ∧ t = { s with mem := Memory.put s.mem addr v } := by
  unfold hostStore at h
  split at h
  · next hv => cases h; exact ⟨hv, rfl⟩
  · cases h

theorem runPacket_next {ws : List Word64} {s t : State} (h : runPacket ws s = .next t) :
    ∃ i, decode s.params.aw ws = .command i ∧ exec i s = .next t := by
  unfold runPacket at h
  split at h
  · next i hd => exact ⟨i, hd, h⟩
  · cases h

theorem runAndReset_next {ws : List Word64} {s t : State} (h : runAndReset ws s = .next t) :
    ∃ i u, decode s.params.aw ws = .command i ∧ exec i s = .next u ∧ t = abandon i u := by
  unfold runAndReset at h
  split at h
  · next i hd =>
    split at h
    · next u hu => cases h; exact ⟨i, u, hd, hu, rfl⟩
    · cases h
    · cases h
  · cases h

/-- Everything a step that answers a next state can have done. -/
theorem step_cases {s t : State} (h : step s = .next t) :
    (s.host = [] ∧ t = s) ∨
    (∃ ws rest i, s.host = .packet ws :: rest ∧ decode s.params.aw ws = .command i ∧
      exec i { s with host := rest } = .next t) ∨
    (∃ b rest, s.host = .setScratch b :: rest ∧ t = { s with host := rest, scratchAvail := b }) ∨
    (∃ a v rest, s.host = .store a v :: rest ∧ s.params.memValid a = true ∧
      t = { s with host := rest, mem := Memory.put s.mem a v }) ∨
    (∃ rest, s.host = .reset :: rest ∧ t = engineReset { s with host := rest }) ∨
    (∃ ws rest i u, s.host = .resetDuring ws :: rest ∧ decode s.params.aw ws = .command i ∧
      exec i { s with host := rest } = .next u ∧ t = abandon i u) := by
  unfold step at h
  split at h
  · next hh => cases h; exact .inl ⟨hh, rfl⟩
  · next ws rest hh =>
    obtain ⟨i, hd, he⟩ := runPacket_next h
    exact .inr (.inl ⟨ws, rest, i, hh, hd, he⟩)
  · next b rest hh => cases h; exact .inr (.inr (.inl ⟨b, rest, hh, rfl⟩))
  · next a v rest hh =>
    obtain ⟨hv, rfl⟩ := hostStore_next h
    exact .inr (.inr (.inr (.inl ⟨a, v, rest, hh, hv, rfl⟩)))
  · next rest hh => cases h; exact .inr (.inr (.inr (.inr (.inl ⟨rest, hh, rfl⟩))))
  · next ws rest hh =>
    obtain ⟨i, u, hd, hu, rfl⟩ := runAndReset_next h
    exact .inr (.inr (.inr (.inr (.inr ⟨ws, rest, i, u, hh, hd, hu, rfl⟩))))

end Sys2Proof.Machine
end

