-- ==== Sys2Proof/Laws/PerInstr.lean ====
section
/-! SUPPORT. What holds of every command as syntax, one lemma per constructor. -/

namespace Sys2Proof.Laws.PacketForm

/-- The packet of a command has the fixed form of R71 to R73: a command word whose reserved field is zero, and after it
exactly as many operand words as the format of its opcode has. -/
def Statement (i : Instr) : Prop :=
  ∃ w0 ops, encode i = w0 :: ops ∧ rsvdField w0 = 0 ∧ operandCount (opcodeField w0) = some ops.length

theorem init : Statement .init := ⟨_, _, rfl, rfl, rfl⟩

theorem absorb (addr len : Word64) : Statement (.absorb addr len) := ⟨_, _, rfl, rfl, rfl⟩

theorem final (out : Word64) : Statement (.final out) := ⟨_, _, rfl, rfl, rfl⟩

theorem hmac (out key klen msg mlen : Word64) : Statement (.hmac out key klen msg mlen) := ⟨_, _, rfl, rfl, rfl⟩

theorem desc : Statement .desc := ⟨_, _, rfl, rfl, rfl⟩

end Sys2Proof.Laws.PacketForm
end

