-- ==== Sys2Proof/Tests/Slice0.lean ====
section
/-! SUPPORT. Tests of the model and witnesses for the statements. Every expected value of a test is written out from
spec/95_test_vectors.md (V<n>, P<n>) or from the rule the docstring names, never from the model. -/

namespace Sys2Proof.Tests

open Sys2Proof Sys2Proof.Machine

-- One theorem after another: the kernel's evaluations would otherwise wait in a thread each.
set_option Elab.async false

/-! ### Helpers -/

/-- The next state of an outcome. -/
def nextOf : Host.Outcome State Fault Refusal → Option State
  | .next s => some s
  | _ => none

/-- The refusal of an outcome. -/
def refusalOf : Host.Outcome State Fault Refusal → Option Refusal
  | .refused r => some r
  | _ => none

/-- The `n` bytes of a hex string, first byte first (R10). -/
def hexBytes (n w : Nat) : List Byte := (List.range n).map fun i => BitVec.ofNat 8 (w >>> (8 * (n - 1 - i)))

/-- Host memory with these bytes at `addr`. -/
def memoryAt (addr : Nat) (bs : List Byte) : Memory := Memory.writeBytes [] addr bs

/-- An instance of `a` just reset, with this host memory and these moves to come. -/
def started (a : Alg) (mem : Memory) (host : List HostInput) : State :=
  { State.resetOf a (Params.default a) with mem := mem, host := host }

/-- The same instance with a digest in progress, `s` absorbed so far. -/
def begun (a : Alg) (mem : Memory) (s : List Byte) : State :=
  { started a mem [] with
    phase := .active
    ctx := absorbBytes (familyOf a) (initCtx (familyOf a) (HashCtx.atReset a)) s }

/-- `fox`, the 43 bytes of 95_test_vectors.md. -/
def fox : List Byte := hexBytes 43
  0x54686520717569636b2062726f776e20666f78206a756d7073206f76657220746865206c617a7920646f67

/-! ### Encodings -/

/-- V50: `INIT`, every bit of its word. -/
theorem test_decode_init : decode 64 [0x0000000000000001] = .command .init := by decide

/-- V50: `ABSORB 0x1000, 3`. -/
theorem test_decode_absorb : decode 64 [0x0000000000000002, 0x0000000000001000, 0x0000000000000003] =
    .command (.absorb 0x1000 3) := by decide

/-- V50: `FINAL 0x2000`. -/
theorem test_decode_final : decode 64 [0x0000000000000003, 0x0000000000002000] = .command (.final 0x2000) := by decide

/-- V50: `HMAC 0x5000, 0x4000, 5, 0x401e, 20`, each operand in its own word. -/
theorem test_decode_hmac : decode 64 [0x0000000000000004, 0x0000000000005000, 0x0000000000004000, 0x0000000000000005,
    0x000000000000401e, 0x0000000000000014] = .command (.hmac 0x5000 0x4000 5 0x401e 20) := by decide

/-- V50: `DESC`. -/
theorem test_decode_desc : decode 64 [0x0000000000000005] = .command .desc := by decide

/-- V51: `ABSORB 0x1000, 3` as bytes. -/
theorem test_bytes_absorb : packetBytes (encode (.absorb 0x1000 3)) =
    [0x02, 0, 0, 0, 0, 0, 0, 0, 0x00, 0x10, 0, 0, 0, 0, 0, 0, 0x03, 0, 0, 0, 0, 0, 0, 0] := by decide

/-- V52: the reserved command words, each refused for its own reason. -/
theorem test_decode_reserved :
    decode 64 [0x0000000000000000] = .reserved .opcode ∧ decode 64 [0x0000000000000006] = .reserved .opcode ∧
    decode 64 [0x00000000000000ff] = .reserved .opcode ∧ decode 64 [0x0000000000000101] = .reserved .rsvdBits ∧
    decode 64 [0x8000000000000001] = .reserved .rsvdBits := by decide

/-- V52: an address bit at `AW`, which is an address bit like any other with `AW = 64`. -/
theorem test_decode_address_bits :
    decode 32 [2, 0x0000000100000000, 1] = .reserved .addressBits ∧
    decode 64 [2, 0x0000000100000000, 1] = .command (.absorb 0x100000000 1) := by decide

/-- R73: a packet with a word too few or too many is none. -/
theorem test_decode_length :
    decode 64 [] = .reserved .wordCount ∧ decode 64 [2, 0x1000] = .reserved .wordCount ∧
    decode 64 [1, 0] = .reserved .wordCount ∧ decode 64 [3, 0x2000, 0] = .reserved .wordCount := by decide

/-- The table's words, whose operand words are zeros. -/
theorem test_decode_table :
    decodeTableWord 64 1 = some .init ∧ decodeTableWord 64 2 = some (.absorb 0 0) ∧
    decodeTableWord 64 3 = some (.final 0) ∧ decodeTableWord 64 4 = some (.hmac 0 0 0 0 0) ∧
    decodeTableWord 64 5 = some .desc ∧ decodeTableWord 64 6 = none := by decide

/-- R81: the assembler's spelling. -/
theorem test_asm : Instr.asm (.absorb 4096 3) = "ABSORB 4096, 3" := by decide

/-! ### Well-formedness: an ill-formed term for each check (R75), with the largest address that passes it -/

theorem test_wf_absorb_addr : Instr.wf 32 (.absorb 0x100000000 1) = false ∧ Instr.wf 32 (.absorb 0xffffffff 1) = true := by
  decide

theorem test_wf_final_out : Instr.wf 32 (.final 0x100000000) = false ∧ Instr.wf 32 (.final 0xffffffff) = true := by decide

theorem test_wf_hmac_out : Instr.wf 32 (.hmac 0x100000000 0 0 0 0) = false := by decide

theorem test_wf_hmac_key : Instr.wf 32 (.hmac 0 0x100000000 0 0 0) = false := by decide

theorem test_wf_hmac_msg : Instr.wf 32 (.hmac 0 0 0 0x100000000 0) = false := by decide

/-- Lengths are not addresses: they may have any bit set (R75). -/
theorem test_wf_hmac_lengths : Instr.wf 32 (.hmac 0xffffffff 0 0x100000000 0 0x100000000) = true := by decide

/-! ### Primitives and compression -/

/-- V18. -/
theorem test_primitives :
    rotl (0x01234567 : Word32) 7 = 0x91a2b380 ∧ rotl (0x01234567 : Word32) 22 = 0x59c048d1 ∧
    rotl (0x80000000 : Word32) 1 = 0x00000001 ∧ (0xefcdab89 + 0xb5527beb : Word32) = 0xa5202774 ∧
    mix128 0 0x01234567 0x89abcdef 0xfedcba98 = 0xffffffff ∧ mix128 1 0x01234567 0x89abcdef 0xfedcba98 = 0x01234567 ∧
    mix128 2 0x01234567 0x89abcdef 0xfedcba98 = 0x76543210 ∧ mix128 3 0x01234567 0x89abcdef 0xfedcba98 = 0x88888888 := by
  decide +kernel

/-- V17: the length field and the serialisation of `F128`; R149: the length field of `F512`. -/
theorem test_serialisation :
    lenField128 0x0123456789abcdef = [0xef, 0xcd, 0xab, 0x89, 0x67, 0x45, 0x23, 0x01] ∧
    serialize128 iv128 = hexBytes 16 0x0123456789abcdeffedcba9876543210 ∧
    lenField512 24 = hexBytes 16 0x18 := by decide +kernel

/-- R144: the third term is a shift. -/
theorem test_small_sigma : smallSigma1 0x0000000000000018 = 0x00030000000000c0 := by decide +kernel

/-- V10: round 0 and the result of the compression of the padded empty message. -/
theorem test_compress_f128 :
    round128 (parseLe32 (0x80 :: List.replicate 63 0)) iv128 0 = ⟨0x10325476, 0xa5202774, 0xefcdab89, 0x98badcfe⟩ ∧
    compress128 iv128 (0x80 :: List.replicate 63 0) = ⟨0xd98c1dd4, 0x04b2008f, 0x980980e9, 0x7e42f8ec⟩ := by
  decide +kernel

/-- V60: `S1` on `"abc"`. -/
theorem test_digest_s1 : finalize (familyOf .s1) (begun .s1 [] [0x61, 0x62, 0x63]).ctx =
    hexBytes 20 0xa9993e364706816aba3e25717850c26c9cd0d89d := by decide +kernel

/-- V62: `S384` on `"abc"`. -/
theorem test_digest_s384 : finalize (familyOf .s384) (begun .s384 [] [0x61, 0x62, 0x63]).ctx =
    hexBytes 48
      0xcb00753f45a35e8bb5a03d699ac65007272c32ab0eded1631a8b605a43ff5bed8086072ba1e7cc2358baeca134c825a7 := by
  decide +kernel

/-- V5 (V61): the document's one keyed tag, under `S256`. -/
theorem test_tag_s256 :
    hmacTag .s256 (memoryAt 0x300 ([0x6b, 0x65, 0x79] ++ fox)) 0x300 3 0x303 43 (Scratch.atReset .s256) =
      hexBytes 32 0xf7bc83f430538424b13298e6aa6fb143ef4d59a14946175997479dbc2d1a3cd8 := by decide +kernel

/-! ### The commands, at most two theorems each -/

/-- R92, its example, on a context in mid-digest (V46: the second `INIT` discards `"abc"`). -/
theorem test_init :
    (nextOf (exec .init (begun .f128 [] [0x61, 0x62, 0x63]))).map
      (fun t => (t.ctx.h, t.ctx.count, t.ctx.fill, t.phase, t.rsp)) =
      some (.f128 ⟨0x67452301, 0xefcdab89, 0x98badcfe, 0x10325476⟩, 0, 0, .active, [0]) := by decide +kernel

/-- R92: `INIT` does not write `BUF` (D22). -/
theorem test_init_keeps_buffer :
    (nextOf (exec .init (begun .f512 [] [0x61, 0x62, 0x63]))).map (fun t => t.ctx.buf.take 3) =
      some [0x61, 0x62, 0x63] := by decide +kernel

/-- V40: `ABSORB p, 3` with `"abc"` at `p`. -/
theorem test_absorb :
    (nextOf (exec (.absorb 0x1000 3) (begun .f128 (memoryAt 0x1000 [0x61, 0x62, 0x63]) []))).map
      (fun t => (t.ctx.count, t.ctx.fill, t.ctx.buf.take 3, t.ctx.h, t.rsp)) =
      some (24, 3, [0x61, 0x62, 0x63], .f128 ⟨0x67452301, 0xefcdab89, 0x98badcfe, 0x10325476⟩, [0]) := by
  decide +kernel

/-- V42: an `ABSORB` that crosses a block boundary. -/
theorem test_absorb_crosses_block :
    (nextOf (exec (.absorb 0x1000 10)
      (begun .f128 (memoryAt 0x1000 (List.replicate 10 0x62)) (List.replicate 60 0x61)))).map
      (fun t => (t.ctx.count, t.ctx.fill, t.ctx.buf.take 6, t.ctx.h)) =
      some (560, 6, List.replicate 6 0x62, .f128 ⟨0xdc01a9dd, 0x3f9f8394, 0x971a1e05, 0x3c5e11fd⟩) := by decide +kernel

/-- V22: `FINAL` of `"abc"` on `F512`, at an odd address. -/
theorem test_final_f512 :
    (nextOf (exec (.final 0x2001) (begun .f512 [] [0x61, 0x62, 0x63]))).map
      (fun t => (Memory.readBytes t.mem 0x2001 64, t.phase, t.rsp)) =
      some (hexBytes 64
        0xddaf35a193617abacc417349ae20413112e6fa4e89a97ea20a9eeee64b55d39a2192992a274fc1a836ba3c23a3feebbd454d4423643ce80e2a9ac94fa54ca49f,
        .finalized, [0]) := by decide +kernel

/-- V14: `FINAL` of the first length that needs a second block on `F128`. -/
theorem test_final_second_block :
    (nextOf (exec (.final 0x2000) (begun .f128 [] (List.replicate 56 0x61)))).map
      (fun t => Memory.readBytes t.mem 0x2000 16) = some (hexBytes 16 0x3b0c8ac703f828b04c6c197006d17218) := by
  decide +kernel

/-- P4, second command (V31): the tag overwrites the key, and stops short of the message. -/
theorem test_hmac_overlapping :
    (nextOf (exec (.hmac 0x300 0x300 3 0x310 43)
      (started .f128 (memoryAt 0x300 ([0x6b, 0x65, 0x79] ++ List.replicate 13 0xee ++ fox)) []))).map
      (fun t => (Memory.readBytes t.mem 0x300 16, Memory.readBytes t.mem 0x310 43, t.phase, t.rsp)) =
      some (hexBytes 16 0x80070713463e7749b90c2dc24911e275, fox, .uninit, [0]) := by decide +kernel

/-- P4, first command: without the scratch nothing is written. -/
theorem test_hmac_alloc_fail :
    nextOf (exec (.hmac 0x300 0x300 3 0x310 43)
      { started .f128 (memoryAt 0x300 [0x6b, 0x65, 0x79]) [] with scratchAvail := false }) =
      some { started .f128 (memoryAt 0x300 [0x6b, 0x65, 0x79]) [] with scratchAvail := false, rsp := [1] } := by
  decide +kernel

/-- V47, on `F128`. -/
theorem test_desc_f128 :
    (nextOf (exec .desc (started .f128 [] []))).map State.rsp = some [0, 96, 64, 16] := by decide +kernel

/-- V47, on `F512`. -/
theorem test_desc_f512 :
    (nextOf (exec .desc (started .f512 [] []))).map State.rsp = some [0, 208, 128, 64] := by decide +kernel

/-! ### Refusals -/

/-- V46: `ABSORB` and `FINAL` are refused before the first `INIT`. -/
theorem test_refused_uninit :
    refusalOf (exec (.absorb 0 1) State.reset) = some .contextUninit ∧
    refusalOf (exec (.final 0) State.reset) = some .contextUninit := by decide +kernel

/-- V48: the last byte of the address space, and one past it; an address that is not looked at. -/
theorem test_operand_range :
    (nextOf (exec (.absorb 0xffffffffffffffff 1) (begun .f128 [] []))).isSome = true ∧
    refusalOf (exec (.absorb 0xffffffffffffffff 2) (begun .f128 [] [])) = some .operandRange ∧
    (nextOf (exec (.absorb 0xffffffffffffffff 0) (begun .f128 [] []))).isSome = true ∧
    (nextOf (exec (.final 0xfffffffffffffff0) (begun .f128 [] []))).isSome = true ∧
    refusalOf (exec (.final 0xfffffffffffffff0) (begun .f512 [] [])) = some .operandRange := by decide +kernel

/-- V49: one byte more than the bit counter can count (U5). -/
theorem test_message_too_long :
    refusalOf (exec (.absorb 0 1) { begun .f128 [] [] with ctx := { (begun .f128 [] []).ctx with count := 0xfffffffffffffff8 } })
      = some .messageTooLong := by decide +kernel

/-! ### The moves of the outside world -/

/-- A table word runs as the very next step after reset. -/
theorem test_step_fetch_word :
    (nextOf (step (State.reset.withFetchWord 64 1))).map State.phase = some .active := by decide +kernel

/-- V52, U10: a reserved packet is refused. -/
theorem test_step_reserved :
    refusalOf (step { State.reset with host := [.packet [0x0000000000000101]] }) = some .reservedPacket ∧
    refusalOf (step { State.reset with host := [.packet [0x0000000000000002]] }) = some .packetLength := by decide +kernel

/-- R220: reset during a digest. -/
theorem test_step_reset :
    (nextOf (step { begun .f128 [(5, 7)] [0x61] with host := [.reset] })).map (fun t => (t.phase, t.mem, t.rsp)) =
      some (.uninit, [(5, 7)], []) := by decide +kernel

/-- R221: a `FINAL` cut off by reset leaves the bytes around its target alone. -/
theorem test_step_reset_during :
    (nextOf (step { begun .f128 [(0x1fff, 7), (0x2010, 9)] [] with host := [.resetDuring [3, 0x2000]] })).map
      (fun t => (t.phase, Memory.get t.mem 0x1fff, t.rsp)) = some (.uninit, 7, []) := by decide +kernel

/-! ### The states the witnesses use -/

theorem started_inv (a : Alg) {mem : Memory} (host : List HostInput) (hm : Memory.wf mem = true)
    (hv : ∀ c ∈ mem, (Params.default a).memValid c.1 = true) : (started a mem host).Inv where
  params := by cases a <;> rfl
  memCanonical := hm
  memValid := hv
  ctx := by simpa [State.alg, started, State.resetOf] using atReset_shape a
  scr := by simpa [State.alg, started, State.resetOf, Scratch.atReset] using atReset_shape a
  kb := by simp [State.alg, started, State.resetOf, Scratch.atReset]
  idig := by simp [State.alg, started, State.resetOf, Scratch.atReset]
  fillOfCount := fun h => nomatch h

/-- A digest in progress on an instance with the shortest message there is. -/
abbrev fresh : State := begun .f128 [] []

theorem fresh_inv : fresh.Inv where
  params := by decide
  memCanonical := rfl
  memValid := fun _ h => nomatch h
  ctx := ⟨rfl, by decide +kernel, by decide +kernel⟩
  scr := ⟨rfl, by decide +kernel, by decide +kernel⟩
  kb := by decide +kernel
  idig := by decide +kernel
  fillOfCount := fun _ => by decide +kernel

/-- Changing what the outside world does next keeps the invariant. -/
theorem withHost_inv {s : State} (h : s.Inv) (host : List HostInput) : ({ s with host := host } : State).Inv :=
  ⟨h.1, h.2, h.3, h.4, h.5, h.6, h.7, h.8⟩

/-- A fresh digest stands for the empty message. -/
theorem fresh_represents : Represents (familyOf fresh.alg) fresh.ctx [] where
  count := by decide +kernel
  fill := by decide +kernel
  buf := by decide +kernel
  h := by decide +kernel
  size := by decide +kernel

/-- A context of `F128` whose next byte fills the block. -/
abbrev lastByte : HashCtx Chain := { HashCtx.atReset .f128 with fill := 63 }

theorem lastByte_shape : CtxShape .f128 lastByte := ⟨rfl, by decide +kernel, by decide +kernel⟩

/-- An outcome with a next state answers it. -/
theorem next_of_isSome {o : Host.Outcome State Fault Refusal} (h : (nextOf o).isSome = true) : ∃ t, o = .next t := by
  cases o with
  | next t => exact ⟨t, rfl⟩
  | fault r => cases h
  | refused r => cases h

/-! ### Witnesses: for every statement with hypotheses, a state and operands that meet them together -/

/-- The smallest and the largest address width R9 allows. -/
theorem witness_ResetMeetsInvariant :
    Params.wf { Params.default .f128 with aw := 1 } = true ∧ Params.wf (Params.default .s384) = true := by decide

/-- An `INIT` presented to a fresh instance. -/
theorem witness_EveryStepKeepsInvariant :
    ({ fresh with host := [.packet [1]] } : State).Inv ∧ ∃ t, step { fresh with host := [.packet [1]] } = .next t :=
  ⟨withHost_inv fresh_inv _, next_of_isSome (by decide +kernel)⟩

/-- A reset during a `FINAL`. -/
theorem witness_NoStepChangesTheInstance :
    ({ fresh with host := [.resetDuring [3, 0]] } : State).Inv ∧
      ∃ t, step { fresh with host := [.resetDuring [3, 0]] } = .next t :=
  ⟨withHost_inv fresh_inv _, next_of_isSome (by decide +kernel)⟩

theorem witness_IdleEngineKeepsState : State.reset.host = [] := rfl

theorem witness_StepRunsDecodedCommand :
    ({ fresh with host := [.packet [3, 0x2000], .reset] } : State).host = .packet [3, 0x2000] :: [.reset] ∧
      decode fresh.params.aw [3, 0x2000] = .command (.final 0x2000) := ⟨rfl, by decide +kernel⟩

theorem witness_FetchWordRunsTheTableWord :
    State.reset.params.aw = 64 ∧ decodeTableWord 64 4 = some (.hmac 0 0 0 0 0) := by decide

theorem witness_ResetBetweenCommands : ({ fresh with host := [.reset] } : State).host = .reset :: [] := rfl

/-- With a command that has a writing stage, with one that has none, and with an `HMAC` that never reaches its own. -/
theorem witness_ResetDuringCommand :
    fresh.Inv ∧
    (decode fresh.params.aw [3, 0x2000] = .command (.final 0x2000) ∧ writeTarget (.final 0x2000) = some 0x2000 ∧
      ∃ u, exec (.final 0x2000) fresh = .next u) ∧
    (decode fresh.params.aw [1] = .command .init ∧ writeTarget .init = none ∧ ∃ u, exec .init fresh = .next u) ∧
    ∃ u, exec (.hmac 0 0 0 0 0) { fresh with scratchAvail := false } = .next u ∧ u.rsp = [statusWord .allocFail] :=
  ⟨fresh_inv, ⟨by decide +kernel, rfl, next_of_isSome (by decide +kernel)⟩,
    ⟨by decide +kernel, rfl, _, rfl⟩, _, execHmac_noScratch rfl, rfl⟩

/-- The first and the last byte of memory, and the address after it. -/
theorem witness_HostWritesItsMemory :
    fresh.Inv ∧ fresh.params.memValid 0 = true ∧ fresh.params.memValid (2 ^ 64 - 1) = true ∧
      fresh.params.memValid (2 ^ 64) = false := ⟨fresh_inv, by decide +kernel, by decide +kernel, by decide +kernel⟩

theorem witness_EqualReadsEqualMemory :
    Memory.wf [(5, 1), (7, 2)] = true ∧ Memory.wf (memoryAt 5 [1, 0, 2]) = true ∧
      ∀ addr, Memory.get [(5, 1), (7, 2)] addr = Memory.get (memoryAt 5 [1, 0, 2]) addr :=
  ⟨by decide, by decide, fun _ => rfl⟩

/-- Every address at the largest value the width admits. -/
theorem witness_DecodeOfEncode : Instr.wf 32 (.hmac 0xffffffff 0xffffffff (-1) 0xffffffff (-1)) = true := by decide

theorem witness_DecodedPacketIsItsEncoding : decode 32 [2, 0xffffffff, 7] = .command (.absorb 0xffffffff 7) := by decide

/-- Each clause at the edge of its range: opcodes 0x00, 0x06 and 0xff; bits 8 and 63 of the command word; and, with
`AW = 32`, bit 32 of each address operand. -/
theorem witness_ReservedPacketsAreRefused :
    (((0 : Word64).extractLsb' 0 8).toNat = 0 ∧ 6 ≤ ((6 : Word64).extractLsb' 0 8).toNat ∧
      6 ≤ ((0xff : Word64).extractLsb' 0 8).toNat) ∧
    ((0x101 : Word64).extractLsb' 8 56 ≠ 0 ∧ (0x8000000000000001 : Word64).extractLsb' 8 56 ≠ 0) ∧
    ∃ b, 32 ≤ b ∧ (0x100000000 : Word64).getLsbD b = true :=
  ⟨by decide, by decide, 32, by decide, by decide⟩

theorem witness_PacketsAsBytes : ([2, 0x1000, 3] : List Word64)[2]? = some 3 ∧ 7 < 8 := by decide

/-- The smallest and the largest amount of a shift and of a rotation of 32 bits. -/
theorem witness_ArithmeticPrimitives : 0 < 32 ∧ 31 < 32 ∧ 0 < 1 ∧ 1 < 32 := by decide

theorem witness_WordAssembly : 3 < 4 ∧ 7 < 8 := by decide

theorem witness_MixingFunctionsBitByBit : 31 < 32 ∧ 63 < 64 := by decide

/-- The last round of each quadrant and the first of the next; the last row of the table. -/
theorem witness_MessageWordOrder :
    15 < 16 ∧ (16 ≤ 16 ∧ 31 < 32) ∧ (32 ≤ 32 ∧ 47 < 48) ∧ (48 ≤ 48 ∧ 63 < 64) ∧ 3 < 4 := by decide

/-- The first and the last round, and a block. -/
theorem witness_CompressF128Rounds : 0 < 64 ∧ 63 < 64 ∧ (List.replicate 64 (0 : Byte)).length = 64 := by decide

theorem witness_CompressF512Rounds : (List.replicate 128 (0 : Byte)).length = 128 := List.length_replicate

theorem witness_CompressS256Rounds : (0x80 :: List.replicate 63 (0 : Byte)).length = 64 := by decide

/-- A block, and the first and the last round of each group of twenty. -/
theorem witness_CompressS1Rounds : (0xff :: List.replicate 63 (0 : Byte)).length = 64 ∧
    19 < 20 ∧ (20 ≤ 20 ∧ 39 < 40) ∧ (40 ≤ 40 ∧ 59 < 60) ∧ (60 ≤ 60 ∧ 79 < 80) := by decide

/-- The last byte of the last word of each digest. -/
theorem witness_DigestByteOrder :
    ([1, 2, 3, 4] : List Word32)[3]? = some 4 ∧ ([1, 2, 3, 4, 5, 6, 7, 8] : List Word64)[7]? = some 8 ∧
      ([1, 2, 3, 4, 5] : List Word32)[4]? = some 5 ∧ ([1, 2, 3, 4, 5, 6, 7, 8] : List Word32)[7]? = some 8 ∧
      3 < 4 ∧ 7 < 8 := by decide

theorem witness_InstanceSizes : ∀ a : Alg, (ivOf a).alg = a := ivOf_alg

theorem witness_LengthFields : 7 < 8 ∧ (Alg.s256 = .s1 ∨ Alg.s256 = .s256) ∧ (Alg.s1 = .s1 ∨ Alg.s1 = .s256) := by decide

theorem witness_RootConstants : 79 < 80 ∧ 7 < 8 := by decide

theorem witness_SiblingsShareF512 : 63 < 64 := by decide

/-- An empty buffer, and one that the next byte fills. -/
theorem witness_AbsorbLoopEffect :
    0 < (familyOf .f128).blockSize ∧ lastByte.buf.length = (familyOf .f128).blockSize ∧
      lastByte.fill < (familyOf .f128).blockSize ∧ (HashCtx.atReset .f128).fill < (familyOf .f128).blockSize := by
  decide +kernel

/-- Both clauses: the byte that fills the block, and one that does not. -/
theorem witness_PushByteIsAbsorbOfOneByte :
    CtxShape .f128 lastByte ∧ lastByte.fill + 1 = Alg.f128.blockSize ∧
      CtxShape .f128 (HashCtx.atReset .f128) ∧ (HashCtx.atReset .f128).fill + 1 ≠ Alg.f128.blockSize :=
  ⟨lastByte_shape, rfl, atReset_shape _, by decide⟩

theorem witness_ChunkingInvariance : CtxShape .f128 lastByte := lastByte_shape

theorem witness_ContextStandsForTheMessage :
    fresh.Inv ∧ (∃ t, exec .init fresh = .next t) ∧ Represents (familyOf fresh.alg) fresh.ctx [] ∧
      (∃ t, exec (.absorb 0 64) fresh = .next t) ∧ (∃ t, exec .desc fresh = .next t) ∧
      ∃ t, exec (.hmac 0 0 65 0 1) fresh = .next t :=
  ⟨fresh_inv, ⟨_, rfl⟩, fresh_represents, next_of_isSome (by decide +kernel), ⟨_, rfl⟩,
    next_of_isSome (by decide +kernel)⟩

theorem witness_PaddingMachine : CtxShape .f128 lastByte ∧ CtxShape .f512 (HashCtx.atReset .f512) :=
  ⟨lastByte_shape, atReset_shape _⟩

theorem witness_DigestOfAnyChunks :
    (HashCtx.atReset .f512).buf.length = Alg.f512.blockSize ∧
      ([[0x61], [], List.replicate 127 0x62] : List (List Byte)).flatten.length < 2 ^ 61 := by decide +kernel

theorem witness_CompressionCounts :
    ({ h := 5, count := 0, buf := List.replicate 64 0, fill := 0 } : HashCtx Nat).buf.length = Alg.f128.blockSize := by
  decide

theorem witness_HmacCompressionCounts :
    ({ h := 5, count := 0, buf := List.replicate 64 0, fill := 0 } : HashCtx Nat).buf.length = Alg.f128.blockSize ∧
      (List.replicate 64 (0x36 : Byte)).length = Alg.f128.blockSize ∧
      (List.replicate 16 (0 : Byte)).length = Alg.f128.outSize := by decide

theorem witness_RecordedBlocksAreTheCompressions : CtxShape .f128 lastByte := lastByte_shape

/-- Both families, with the default parameters. -/
theorem witness_DescCompletes :
    (State.resetOf .f128 (Params.default .f128)).params = Params.default (State.resetOf .f128 (Params.default .f128)).alg ∧
    (State.resetOf .f512 (Params.default .f512)).params = Params.default (State.resetOf .f512 (Params.default .f512)).alg :=
  ⟨rfl, rfl⟩

/-- The last byte of the address space. -/
theorem witness_AbsorbCompletes :
    fresh.phase = .active ∧ ValidOperand fresh.params (0xffffffffffffffff : Word64).toNat (1 : Word64).toNat ∧
      fresh.ctx.count.toNat + 8 * (1 : Word64).toNat < 2 ^ 64 :=
  ⟨rfl, (rangeOk_iff _ _ _).1 (by decide +kernel), by decide +kernel⟩

theorem witness_AbsorbOfNothing : fresh.Inv ∧ fresh.phase = .active := ⟨fresh_inv, rfl⟩

/-- The last place the digest fits. -/
theorem witness_FinalCompletes :
    fresh.Inv ∧ fresh.phase = .active ∧ ValidOperand fresh.params (0xfffffffffffffff0 : Word64).toNat fresh.alg.outSize :=
  ⟨fresh_inv, rfl, (rangeOk_iff _ _ _).1 (by decide +kernel)⟩

theorem witness_FinalWritesTheDigest :
    fresh.Inv ∧ Represents (familyOf fresh.alg) fresh.ctx [] ∧ ∃ t, exec (.final 0x2000) fresh = .next t :=
  ⟨fresh_inv, fresh_represents, next_of_isSome (by decide +kernel)⟩

/-- With `out` over the key, in phase `UNINIT`; and the longest message the limit admits is a valid operand. -/
theorem witness_HmacCompletes :
    (started .f128 [] []).Inv ∧ (started .f128 [] []).scratchAvail = true ∧
      ValidOperand (started .f128 [] []).params (0x300 : Word64).toNat (3 : Word64).toNat ∧
      ValidOperand (started .f128 [] []).params (0x310 : Word64).toNat (0x1fffffffffffffbf : Word64).toNat ∧
      ValidOperand (started .f128 [] []).params (0x300 : Word64).toNat (started .f128 [] []).alg.outSize ∧
      (started .f128 [] []).alg.blockSize + (0x1fffffffffffffbf : Word64).toNat < 2 ^ 61 :=
  ⟨started_inv _ _ rfl (fun _ h => nomatch h), rfl, (rangeOk_iff _ _ _).1 (by decide +kernel),
    (rangeOk_iff _ _ _).1 (by decide +kernel), (rangeOk_iff _ _ _).1 (by decide +kernel), by decide +kernel⟩

theorem witness_HmacAllocationFailure :
    ({ State.reset with scratchAvail := false } : State).scratchAvail = false ∧ State.reset.scratchAvail = true ∧
      ∃ t, exec (.hmac 0 0 0 0 0) State.reset = .next t := ⟨rfl, rfl, next_of_isSome (by decide +kernel)⟩

theorem witness_HmacTouchesOnlyItsScratch :
    fresh.Inv ∧ CtxShape fresh.alg lastByte ∧ ∃ t, exec (.hmac 0 0 0 0 0) fresh = .next t :=
  ⟨fresh_inv, ⟨by decide +kernel, by decide +kernel, by decide +kernel⟩, next_of_isSome (by decide +kernel)⟩

/-- Both clauses on a short key, and the first on a long one. -/
theorem witness_MaskedKeyBlock : 2 < min 3 64 ∧ (min 3 64 ≤ 63 ∧ 63 < 64) ∧ 63 < min 65 64 := by decide

theorem witness_LongKeysAreCut :
    fresh.Inv ∧ fresh.scratchAvail = true ∧ fresh.alg.blockSize < (65 : Word64).toNat ∧
      (∃ t, exec (.hmac 0x300 0x100 65 0x200 1) fresh = .next t) ∧ Memory.wf (memoryAt 0x140 [9]) = true ∧
      (∀ i < fresh.alg.blockSize, Memory.get (memoryAt 0x140 [9]) (0x100 + i) = Memory.get fresh.mem (0x100 + i)) ∧
      ∀ i < 1, Memory.get (memoryAt 0x140 [9]) (0x200 + i) = Memory.get fresh.mem (0x200 + i) :=
  ⟨fresh_inv, rfl, by decide +kernel, next_of_isSome (by decide +kernel), by decide, by decide +kernel,
    by decide +kernel⟩

/-- Every clause: each command on a state where it completes, and an `HMAC` that answers `ALLOC_FAIL`. -/
theorem witness_OnlyFinalAndHmacWriteMemory :
    fresh.Inv ∧ (∃ t, exec .init fresh = .next t) ∧ (∃ t, exec .desc fresh = .next t) ∧
      (∃ t, exec (.absorb 0 1) fresh = .next t) ∧ (∃ t, exec (.final 0) fresh = .next t) ∧
      (∃ t, exec (.hmac 0 0 0 0 0) fresh = .next t) ∧
      ∃ t, exec (.hmac 0 0 0 0 0) { fresh with scratchAvail := false } = .next t ∧ t.rsp = [0x0000000000000001] :=
  ⟨fresh_inv, ⟨_, rfl⟩, ⟨_, rfl⟩, next_of_isSome (by decide +kernel), next_of_isSome (by decide +kernel),
    next_of_isSome (by decide +kernel), _, execHmac_noScratch rfl, rfl⟩

theorem witness_CommandFrames : fresh.Inv ∧ (∃ t, exec (.absorb 0 64) fresh = .next t) ∧
    (∃ t, exec (.final 0) fresh = .next t) ∧ ∃ t, exec (.hmac 0 0 0 0 0) fresh = .next t :=
  ⟨fresh_inv, next_of_isSome (by decide +kernel), next_of_isSome (by decide +kernel),
    next_of_isSome (by decide +kernel)⟩

theorem witness_PhaseTransitions : (∃ t, exec (.absorb 0 1) fresh = .next t) ∧ (∃ t, exec (.final 0) fresh = .next t) ∧
    State.reset.phase ≠ .active ∧ ({ fresh with host := [.reset] } : State).host = .reset :: [] :=
  ⟨next_of_isSome (by decide +kernel), next_of_isSome (by decide +kernel), by decide, rfl⟩

theorem witness_ResponsesAreOkOrAllocFail : (∃ t, exec (.final 0) fresh = .next t) ∧
    ∃ t, exec (.hmac 0 0 0 0 0) { fresh with scratchAvail := false } = .next t :=
  ⟨next_of_isSome (by decide +kernel), _, execHmac_noScratch rfl⟩

/-- Each violation of the statement has a state that shows it, at the edge of its range. -/
theorem witness_RefusedExactlyOnViolations :
    State.reset.phase = .uninit ∧ ({ fresh with phase := .finalized } : State).phase = .finalized ∧
      ¬ ValidOperand fresh.params (0xffffffffffffffff : Word64).toNat 2 ∧
      2 ^ 64 ≤ fresh.ctx.count.toNat + 8 * (0x2000000000000000 : Word64).toNat ∧
      2 ^ 61 ≤ fresh.alg.blockSize + (0x1fffffffffffffc0 : Word64).toNat ∧
      ({ fresh with scratchAvail := false } : State).scratchAvail = false :=
  ⟨rfl, rfl, fun h => absurd ((rangeOk_iff _ _ _).2 h) (by decide +kernel), by decide +kernel, by decide +kernel, rfl⟩

/-- Two states that differ in a stale byte of the buffer and in the whole scratch. -/
theorem witness_ValuelessFieldsNeverMatter :
    fresh.Inv ∧ ({ fresh with ctx := { fresh.ctx with buf := fresh.ctx.buf.set 5 9 } } : State).Inv ∧
      SameValues fresh { fresh with ctx := { fresh.ctx with buf := fresh.ctx.buf.set 5 9 } } :=
  ⟨fresh_inv,
    { fresh_inv with
      ctx := ⟨rfl, by decide +kernel, by decide +kernel⟩
      fillOfCount := fun _ => by decide +kernel },
    ⟨rfl, rfl, rfl, rfl, rfl, rfl, rfl, rfl, fun _ => ⟨rfl, rfl, rfl, by decide +kernel⟩⟩⟩

/-- Chunks that cross a block boundary and end at the top of the address space. -/
theorem witness_TwoAbsorbsAreOne :
    fresh.Inv ∧ fresh.phase = .active ∧ (63 : Word64).toNat + (2 : Word64).toNat < 2 ^ 64 ∧
      ValidOperand fresh.params (0xffffffffffffffbf : Word64).toNat ((63 : Word64).toNat + (2 : Word64).toNat) ∧
      fresh.ctx.count.toNat + 8 * ((63 : Word64).toNat + (2 : Word64).toNat) < 2 ^ 64 :=
  ⟨fresh_inv, rfl, by decide, (rangeOk_iff _ _ _).1 (by decide +kernel), by decide +kernel⟩

/-- P1, right after reset, with `out` over the message. -/
theorem witness_HashPseudoInstruction :
    (started .f128 [] [.packet [1], .packet [2, 0x1000, 3], .packet [3, 0x1000]]).Inv ∧
      (started .f128 [] [.packet [1], .packet [2, 0x1000, 3], .packet [3, 0x1000]]).host =
        (Instr.hashPseudo 0x1000 0x1000 3).map (fun i => HostInput.packet (encode i)) ++ [] ∧
      (∀ i ∈ Instr.hashPseudo 0x1000 0x1000 3, i.wf 64 = true) ∧
      ValidOperand (Params.default .f128) (0x1000 : Word64).toNat (3 : Word64).toNat ∧
      ValidOperand (Params.default .f128) (0x1000 : Word64).toNat 16 ∧ (3 : Word64).toNat < 2 ^ 61 :=
  ⟨started_inv _ _ rfl (fun _ h => nomatch h), rfl, by decide, (rangeOk_iff _ _ _).1 (by decide +kernel),
    (rangeOk_iff _ _ _).1 (by decide +kernel), by decide⟩

end Sys2Proof.Tests
end

section
/-! Word assembly and disassembly (00_scope.md R12): one law per way of looking at a word with a byte appended below
it, and from them the value of each word and its bytes. -/

namespace Sys2Proof.Machine

theorem toNat_append_byte {w : Nat} (x : BitVec w) (b : Byte) : (x ++ b).toNat = x.toNat * 2 ^ 8 + b.toNat := by
  rw [BitVec.toNat_append, ← Nat.shiftLeft_add_eq_or_of_lt b.isLt, Nat.shiftLeft_eq]

/-- A byte appended below moves every other byte up one place. -/
theorem extractLsb'_append_byte {w : Nat} (x : BitVec w) (b : Byte) (k : Nat) :
    (x ++ b).extractLsb' (k + 8) 8 = x.extractLsb' k 8 := by
  rw [BitVec.extractLsb'_append_eq_of_le (Nat.le_add_left 8 k), Nat.add_sub_cancel]

theorem le32_toNat (b0 b1 b2 b3 : Byte) :
    (le32 b0 b1 b2 b3).toNat = b0.toNat + b1.toNat * 2 ^ 8 + b2.toNat * 2 ^ 16 + b3.toNat * 2 ^ 24 := by
  simp only [le32, toNat_append_byte]
  omega

theorem be64_toNat (b0 b1 b2 b3 b4 b5 b6 b7 : Byte) :
    (be64 b0 b1 b2 b3 b4 b5 b6 b7).toNat =
      b0.toNat * 2 ^ 56 + b1.toNat * 2 ^ 48 + b2.toNat * 2 ^ 40 + b3.toNat * 2 ^ 32 + b4.toNat * 2 ^ 24 +
        b5.toNat * 2 ^ 16 + b6.toNat * 2 ^ 8 + b7.toNat := by
  simp only [be64, toNat_append_byte]
  omega

@[simp] theorem tole32_le32 (b0 b1 b2 b3 : Byte) : tole32 (le32 b0 b1 b2 b3) = [b0, b1, b2, b3] := by
  simp only [tole32, le32, extractLsb'_append_byte, BitVec.extractLsb'_append_eq_right, BitVec.extractLsb'_eq_self]

@[simp] theorem tobe64_be64 (b0 b1 b2 b3 b4 b5 b6 b7 : Byte) :
    tobe64 (be64 b0 b1 b2 b3 b4 b5 b6 b7) = [b0, b1, b2, b3, b4, b5, b6, b7] := by
  simp only [tobe64, be64, extractLsb'_append_byte, BitVec.extractLsb'_append_eq_right, BitVec.extractLsb'_eq_self]

@[simp] theorem tole32_length (x : Word32) : (tole32 x).length = 4 := rfl

@[simp] theorem tole64_length (x : Word64) : (tole64 x).length = 8 := rfl

@[simp] theorem tobe64_length (x : Word64) : (tobe64 x).length = 8 := rfl

theorem tole32_getElem? (x : Word32) {k : Nat} (hk : k < 4) : (tole32 x)[k]? = some (x.extractLsb' (8 * k) 8) := by
  interval_cases k <;> rfl

/-- The little-endian bytes of R12 are the bytes in which a packet word travels (R80). -/
theorem tole64_eq_wordBytes (x : Word64) : tole64 x = wordBytes x := rfl

theorem tole64_getElem? (x : Word64) {k : Nat} (hk : k < 8) : (tole64 x)[k]? = some (x.extractLsb' (8 * k) 8) := by
  simp [tole64_eq_wordBytes, wordBytes, hk]

theorem tobe64_eq_reverse (x : Word64) : tobe64 x = (tole64 x).reverse := rfl

theorem tobe64_getElem? (x : Word64) {k : Nat} (hk : k < 8) :
    (tobe64 x)[k]? = some (x.extractLsb' (56 - 8 * k) 8) := by
  have hbyte : 8 * (7 - k) = 56 - 8 * k := by omega
  rw [tobe64_eq_reverse, List.getElem?_reverse hk, tole64_length, tole64_getElem? x (by omega), ← hbyte]

/-- Settles O19: the values by appending one byte at a time, the bytes by taking one off at a time. -/
theorem wordAssembly : Obligations.WordAssembly := by
  unfold Obligations.WordAssembly
  refine ⟨fun b0 b1 b2 b3 => ?_, fun b0 b1 b2 b3 b4 b5 b6 b7 => ?_, fun x => ?_, fun x => ?_, fun x => ?_⟩
  · exact ⟨le32_toNat b0 b1 b2 b3, tole32_le32 b0 b1 b2 b3⟩
  · exact ⟨be64_toNat b0 b1 b2 b3 b4 b5 b6 b7, tobe64_be64 b0 b1 b2 b3 b4 b5 b6 b7⟩
  · exact ⟨tole32_length x, fun _ => tole32_getElem? x⟩
  · exact ⟨tole64_length x, fun _ => tole64_getElem? x⟩
  · exact ⟨tobe64_length x, fun _ => tobe64_getElem? x⟩

end Sys2Proof.Machine
end

section
/-! Reserved packets (30_encoding.md R79): what the decoder answers to each kind of them, and that a step refuses them. -/

namespace Sys2Proof

/-- An address operand with a bit set at or above `AW` does not fit (R75). -/
theorem addrFits_eq_false {aw b : Nat} {a : Word64} (hb : aw ≤ b) (hbit : a.getLsbD b = true) :
    addrFits aw a = false := by
  have hle : 2 ^ aw ≤ a.toNat := (Nat.pow_le_pow_right Nat.two_pos hb).trans (Nat.ge_two_pow_of_testBit hbit)
  simpa [addrFits] using hle

theorem checked_of_not_wf {aw : Nat} {i : Instr} (h : i.wf aw = false) :
    Instr.checked aw i = .reserved .addressBits := by
  simp [Instr.checked, h]

/-- Of an encoded command the decoder has only the address operands left to check (R75). -/
theorem decode_encode_eq_checked (aw : Nat) (i : Instr) : decode aw (encode i) = Instr.checked aw i := by
  cases i <;> rfl

theorem decodeOperands_reserved {op : Nat} (aw : Nat) (ops : List Word64) (h : op = 0 ∨ 6 ≤ op) :
    decodeOperands aw op ops = .reserved .opcode := by
  obtain rfl | h := h
  · rfl
  · obtain ⟨n, rfl⟩ := Nat.exists_eq_add_of_le' h
    rfl

theorem decode_reservedOpcode {aw : Nat} {w0 : Word64} {ops : List Word64} (hr : rsvdField w0 = 0)
    (hop : (opcodeField w0).toNat = 0 ∨ 6 ≤ (opcodeField w0).toNat) : decode aw (w0 :: ops) = .reserved .opcode := by
  rw [decode, if_pos hr, decodeOperands_reserved aw ops hop]

theorem decode_rsvdBits {aw : Nat} {w0 : Word64} {ops : List Word64} (hr : rsvdField w0 ≠ 0) :
    decode aw (w0 :: ops) = .reserved .rsvdBits := by
  rw [decode, if_neg hr]

end Sys2Proof

namespace Sys2Proof.Machine

theorem step_packet {s : State} {ws : List Word64} {rest : List HostInput} (hs : s.host = .packet ws :: rest) :
    step s = runPacket ws { s with host := rest } := by
  rw [step, hs]

theorem step_of_reserved {s : State} {ws : List Word64} {rest : List HostInput} {why : Reserved}
    (hs : s.host = .packet ws :: rest) (hd : decode s.params.aw ws = .reserved why) :
    step s = .refused (packetRefusal why) := by
  rw [step_packet hs, runPacket, hd]

/-- The packet of a command whose address operands do not fit is refused as reserved. -/
theorem step_encode_of_not_wf {s : State} {i : Instr} {rest : List HostInput}
    (hs : s.host = .packet (encode i) :: rest) (hw : i.wf s.params.aw = false) : step s = .refused .reservedPacket :=
  step_of_reserved hs ((decode_encode_eq_checked s.params.aw i).trans (checked_of_not_wf hw))

/-- Settles O16: a command word the decoder rejects by its reserved field or its opcode, or a command that is not
well-formed because one of its addresses does not fit. -/
theorem reservedPacketsAreRefused : Obligations.ReservedPacketsAreRefused := by
  unfold Obligations.ReservedPacketsAreRefused
  refine fun s rest => ⟨fun w0 ops hs hres => ?_, fun addr len hs ⟨b, hb, hbit⟩ => ?_,
    fun out hs ⟨b, hb, hbit⟩ => ?_, fun out key klen msg mlen hs ⟨b, hb, hbit⟩ => ?_⟩
  · by_cases hr : rsvdField w0 = 0
    · have hop : (opcodeField w0).toNat = 0 ∨ 6 ≤ (opcodeField w0).toNat :=
        hres.imp_right fun h => h.resolve_right (not_not_intro hr)
      exact step_of_reserved hs (decode_reservedOpcode hr hop)
    · exact step_of_reserved hs (decode_rsvdBits hr)
  · exact step_encode_of_not_wf (i := .absorb addr len) hs (addrFits_eq_false hb hbit)
  · exact step_encode_of_not_wf (i := .final out) hs (addrFits_eq_false hb hbit)
  · refine step_encode_of_not_wf (i := .hmac out key klen msg mlen) hs ?_
    rcases hbit with h | h | h <;> simp [Instr.wf, addrFits_eq_false hb h]

end Sys2Proof.Machine
end

section
/-! Packets and responses as bytes (30_encoding.md R80): each word is eight bytes, found at its place and read back. -/

namespace Sys2Proof

@[simp] theorem packetBytes_nil : packetBytes [] = [] := rfl

@[simp] theorem packetBytes_cons (w : Word64) (ws : List Word64) :
    packetBytes (w :: ws) = wordBytes w ++ packetBytes ws := rfl

theorem packetBytes_length (ws : List Word64) : (packetBytes ws).length = 8 * ws.length := by
  induction ws with
  | nil => rfl
  | cons w ws ih =>
    rw [packetBytes_cons, List.length_append, wordBytes_length, ih, List.length_cons]
    omega

theorem packetBytes_getElem? {ws : List Word64} {j k : Nat} {w : Word64} (hw : ws[j]? = some w) (hk : k < 8) :
    (packetBytes ws)[8 * j + k]? = some (w.extractLsb' (8 * k) 8) := by
  induction ws generalizing j with
  | nil => simp at hw
  | cons v ws ih =>
    rw [packetBytes_cons]
    cases j with
    | zero =>
      obtain rfl : v = w := by simpa using hw
      rw [Nat.mul_zero, Nat.zero_add, List.getElem?_append_left (by simpa using hk)]
      exact Machine.tole64_getElem? v hk
    | succ j =>
      have hplace : 8 * (j + 1) + k - (wordBytes v).length = 8 * j + k := by rw [wordBytes_length]; omega
      rw [List.getElem?_append_right (by rw [wordBytes_length]; omega), hplace]
      exact ih (by simpa using hw)

/-- Eight bytes at the front read as the word they were written from. -/
theorem packetOfBytes_wordBytes_append (w : Word64) (bs : List Byte) :
    packetOfBytes (wordBytes w ++ bs) = w :: packetOfBytes bs := by
  refine congrArg (· :: packetOfBytes bs) (BitVec.eq_of_toNat_eq ?_)
  have hlt : w.toNat < 2 ^ 64 := w.isLt
  simp only [Machine.toNat_append_byte, BitVec.extractLsb'_toNat, Nat.shiftRight_eq_div_pow]
  omega

theorem packetOfBytes_packetBytes (ws : List Word64) : packetOfBytes (packetBytes ws) = ws := by
  induction ws with
  | nil => rfl
  | cons w ws ih => rw [packetBytes_cons, packetOfBytes_wordBytes_append, ih]

/-- Settles O17, by induction on the words: the first word's eight bytes stand before the bytes of the others. -/
theorem packetsAsBytes : Obligations.PacketsAsBytes := by
  unfold Obligations.PacketsAsBytes
  exact fun ws => ⟨packetBytes_length ws, fun _ _ _ => packetBytes_getElem?, packetOfBytes_packetBytes ws⟩

end Sys2Proof
end

section
/-! The full blocks of a byte sequence (10_state.md R37) and the buffering engine (40_hash_commands.md R93, R94, R96):
pushing bytes compresses the full blocks of what was buffered followed by the bytes pushed, and buffers the rest. -/

namespace Sys2Proof.Machine

@[simp] theorem blocksOf_length (b : Nat) (s : List Byte) : (blocksOf b s).length = s.length / b := by simp [blocksOf]

theorem blocksOf_of_length_lt {b : Nat} {s : List Byte} (h : s.length < b) : blocksOf b s = [] := by
  simp [blocksOf, Nat.div_eq_of_lt h]

theorem drop_append_block {b : Nat} {blk : List Byte} (s : List Byte) (hblk : blk.length = b) (j : Nat) :
    (blk ++ s).drop ((j + 1) * b) = s.drop (j * b) := by
  rw [Nat.succ_mul, Nat.add_comm, ← List.drop_drop, List.drop_left' hblk]

theorem blocksOf_append_block {b : Nat} {blk : List Byte} (s : List Byte) (hb : 0 < b) (hblk : blk.length = b) :
    blocksOf b (blk ++ s) = blk :: blocksOf b s := by
  have hfirst : (blk ++ s).take b = blk := List.take_left' hblk
  have hcount : (blk ++ s).length / b = s.length / b + 1 := by
    rw [List.length_append, hblk, Nat.add_div_left _ hb]
  simp only [blocksOf, hcount, List.range_succ_eq_map, List.map_cons, List.map_map, Nat.zero_mul, List.drop_zero,
    hfirst]
  exact congrArg (blk :: ·) (List.map_congr_left fun j _ => congrArg (List.take b) (drop_append_block s hblk j))

theorem take_set_succ {buf : List Byte} {pos : Nat} (v : Byte) (h : pos < buf.length) :
    (buf.set pos v).take (pos + 1) = buf.take pos ++ [v] := by
  rw [List.take_add_one, List.take_set_of_le (Nat.le_refl pos), List.getElem?_set_self h, Option.toList_some]

/-- The block a last byte completes is what was buffered, followed by that byte. -/
theorem set_eq_take_append {buf : List Byte} {pos : Nat} (v : Byte) (h : pos + 1 = buf.length) :
    buf.set pos v = buf.take pos ++ [v] := by
  rw [← take_set_succ v (by omega), List.take_of_length_le (by simp [h])]

section
variable {χ : Type} (fam : Family χ) {x : HashCtx χ}

/-! ### One byte -/

theorem buffered_length (hx : x.buf.length = fam.blockSize) (hf : x.fill < fam.blockSize) :
    (x.buf.take x.fill).length = x.fill :=
  List.length_take_of_le (by omega)

theorem completed_block_length (v : Byte) (hx : x.buf.length = fam.blockSize) (hb : x.fill + 1 = fam.blockSize) :
    (x.buf.take x.fill ++ [v]).length = fam.blockSize := by
  rw [List.length_append, buffered_length fam hx (by omega), List.length_singleton, hb]

theorem pushByte_take_of_buffers (v : Byte) (hx : x.buf.length = fam.blockSize) (hf : x.fill < fam.blockSize)
    (hb : x.fill + 1 ≠ fam.blockSize) :
    (pushByte fam x v).buf.take (pushByte fam x v).fill = x.buf.take x.fill ++ [v] := by
  rw [pushByte_buffers fam v hb]
  exact take_set_succ v (hx ▸ hf)

theorem pushByte_buf_length (v : Byte) (hx : x.buf.length = fam.blockSize) :
    (pushByte fam x v).buf.length = fam.blockSize := by
  rw [pushByte_buf, List.length_set, hx]

theorem pushByte_fill_lt (v : Byte) (hf : x.fill < fam.blockSize) : (pushByte fam x v).fill < fam.blockSize := by
  rw [pushByte_fill fam v hf]
  exact Nat.mod_lt _ (by omega)

/-- The counter takes no part in buffering (R96). -/
theorem pushByte_withCount (c : Word64) (v : Byte) :
    pushByte fam { x with count := c } v = { pushByte fam x v with count := c } := by
  unfold pushByte
  dsimp only
  split <;> rfl

/-! ### Byte sequences -/

theorem foldl_pushByte_withCount (x : HashCtx χ) (c : Word64) (s : List Byte) :
    s.foldl (pushByte fam) { x with count := c } = { s.foldl (pushByte fam) x with count := c } := by
  induction s generalizing x with
  | nil => rfl
  | cons v s ih => rw [List.foldl_cons, pushByte_withCount, ih, List.foldl_cons]

/-- Pushing bytes compresses the full blocks of what was buffered followed by them, in order (R94). -/
theorem foldl_pushByte_h (s : List Byte) (hx : x.buf.length = fam.blockSize) (hf : x.fill < fam.blockSize) :
    (s.foldl (pushByte fam) x).h =
      (blocksOf fam.blockSize (x.buf.take x.fill ++ s)).foldl fam.compress x.h := by
  induction s generalizing x with
  | nil =>
    rw [List.append_nil, blocksOf_of_length_lt ((buffered_length fam hx hf).trans_lt hf)]
    rfl
  | cons v s ih =>
    rw [List.foldl_cons, List.append_cons, ih (pushByte_buf_length fam v hx) (pushByte_fill_lt fam v hf)]
    by_cases hb : x.fill + 1 = fam.blockSize
    · have hblk : x.buf.set x.fill v = x.buf.take x.fill ++ [v] := set_eq_take_append v (hb.trans hx.symm)
      rw [blocksOf_append_block s (by omega) (completed_block_length fam v hx hb), pushByte_compresses fam v hb, hblk]
      rfl
    · rw [pushByte_take_of_buffers fam v hx hf hb, pushByte_buffers fam v hb]

/-- Pushing bytes buffers what the full blocks leave over (R94). -/
theorem foldl_pushByte_take (s : List Byte) (hx : x.buf.length = fam.blockSize) (hf : x.fill < fam.blockSize) :
    (s.foldl (pushByte fam) x).buf.take (s.foldl (pushByte fam) x).fill =
      (x.buf.take x.fill ++ s).drop ((x.fill + s.length) / fam.blockSize * fam.blockSize) := by
  induction s generalizing x with
  | nil => simp [Nat.div_eq_of_lt hf]
  | cons v s ih =>
    have hlen : x.fill + (v :: s).length = x.fill + 1 + s.length := by rw [List.length_cons]; omega
    rw [List.foldl_cons, List.append_cons, ih (pushByte_buf_length fam v hx) (pushByte_fill_lt fam v hf), hlen]
    by_cases hb : x.fill + 1 = fam.blockSize
    · rw [hb, Nat.add_div_left _ (by omega), drop_append_block s (completed_block_length fam v hx hb),
        pushByte_compresses fam v hb, Nat.zero_add, List.take_zero, List.nil_append]
    · rw [pushByte_take_of_buffers fam v hx hf hb, pushByte_buffers fam v hb]

/-! ### `AbsorbBytes` and the counter -/

@[simp] theorem absorbBytes_count (x : HashCtx χ) (s : List Byte) :
    (absorbBytes fam x s).count = x.count + BitVec.ofNat 64 (8 * s.length) := absorbLoop_count fam _ _ s

@[simp] theorem initCtx_count (x : HashCtx χ) : (initCtx fam x).count = 0 := rfl

@[simp] theorem padZero_count (fuel : Nat) (x : HashCtx χ) : (padZero fam fuel x).count = x.count := by
  induction fuel generalizing x with
  | zero => rfl
  | succ fuel ih =>
    rw [padZero]
    split
    · rfl
    · rw [ih, pushByte_count]

@[simp] theorem padCtx_count (x : HashCtx χ) : (padCtx fam x).count = x.count := by simp [padCtx]

theorem absorbBytes_eq_withCount (s : List Byte) (hx : x.buf.length = fam.blockSize) (hf : x.fill < fam.blockSize) :
    absorbBytes fam x s =
      { s.foldl (pushByte fam) x with count := x.count + BitVec.ofNat 64 (8 * s.length) } := by
  rw [absorbBytes_eq_foldl fam s hx hf, foldl_pushByte_withCount]

end

/-- Settles O31: the counter is written once, before the loop, and no pushed byte writes it. -/
theorem bitCounter : Obligations.BitCounter := by
  unfold Obligations.BitCounter
  intro χ fam x s v
  refine ⟨?_, initCtx_count fam x, pushByte_count fam x v, padCtx_count fam x⟩
  rw [absorbBytes_count, BitVec.toNat_add, BitVec.toNat_ofNat, Nat.add_mod_mod]

/-- Settles O32: absorbing pushes the input byte by byte, and what that leaves is known by induction on the bytes. -/
theorem absorbLoopEffect : Obligations.AbsorbLoopEffect := by
  unfold Obligations.AbsorbLoopEffect
  intro χ fam x s _ hx hf
  rw [absorbBytes_eq_withCount fam s hx hf]
  refine ⟨foldl_pushByte_h fam s hx hf, ?_, foldl_pushByte_fill fam s hf, foldl_pushByte_take fam s hx hf, rfl, ?_⟩
  · rw [blocksOf_length, List.length_append, buffered_length fam hx hf]
  · exact (foldl_pushByte_buf_length fam x s).trans hx

/-- Settles O33: one byte is pushed, and the two cases of `PushByte` say the rest. -/
theorem pushByteIsAbsorbOfOneByte : Obligations.PushByteIsAbsorbOfOneByte := by
  unfold Obligations.PushByteIsAbsorbOfOneByte
  intro a x v hshape
  refine ⟨?_, pushByte_buf _ x v, fun hne => ?_, fun heq => ?_⟩
  · rw [absorbBytes_eq_withCount (familyOf a) [v] hshape.buf hshape.fill, List.foldl_cons, List.foldl_nil,
      ← pushByte_count (familyOf a) x v]
  · rw [pushByte_buffers (familyOf a) v hne]
    exact ⟨rfl, rfl⟩
  · rw [pushByte_compresses (familyOf a) v heq]
    exact ⟨rfl, rfl⟩

end Sys2Proof.Machine
end

section
/-! Chunks of a message (10_state.md R37, 40_hash_commands.md R103) and the padding machine (R97), with the number of
compressions each of them costs (R101). -/

namespace Sys2Proof.Machine

section
variable {χ : Type} (fam : Family χ) {x : HashCtx χ}

/-! ### Chunks -/

theorem absorbBytes_buf_length (s : List Byte) (hx : x.buf.length = fam.blockSize) (hf : x.fill < fam.blockSize) :
    (absorbBytes fam x s).buf.length = fam.blockSize := by
  rw [absorbBytes_eq_withCount fam s hx hf]
  exact (foldl_pushByte_buf_length fam x s).trans hx

theorem absorbBytes_fill (s : List Byte) (hx : x.buf.length = fam.blockSize) (hf : x.fill < fam.blockSize) :
    (absorbBytes fam x s).fill = (x.fill + s.length) % fam.blockSize := by
  rw [absorbBytes_eq_withCount fam s hx hf]
  exact foldl_pushByte_fill fam s hf

theorem absorbBytes_fill_lt (s : List Byte) (hx : x.buf.length = fam.blockSize) (hf : x.fill < fam.blockSize) :
    (absorbBytes fam x s).fill < fam.blockSize := by
  rw [absorbBytes_fill fam s hx hf]
  exact Nat.mod_lt _ (by omega)

theorem absorbBytes_nil (hx : x.buf.length = fam.blockSize) (hf : x.fill < fam.blockSize) :
    absorbBytes fam x [] = x := by
  simp [absorbBytes_eq_foldl fam [] hx hf]

/-- Two chunks are their concatenation (R37, R103). -/
theorem absorbBytes_append (s t : List Byte) (hx : x.buf.length = fam.blockSize) (hf : x.fill < fam.blockSize) :
    absorbBytes fam (absorbBytes fam x s) t = absorbBytes fam x (s ++ t) := by
  rw [absorbBytes_eq_withCount fam t (absorbBytes_buf_length fam s hx hf) (absorbBytes_fill_lt fam s hx hf),
    absorbBytes_count, absorbBytes_eq_withCount fam s hx hf, absorbBytes_eq_withCount fam (s ++ t) hx hf,
    foldl_pushByte_withCount, List.foldl_append, List.length_append, Nat.mul_add, BitVec.ofNat_add, BitVec.add_assoc]

/-- Any chunks are their concatenation (R103). -/
theorem foldl_absorbBytes (chunks : List (List Byte)) (hx : x.buf.length = fam.blockSize)
    (hf : x.fill < fam.blockSize) :
    chunks.foldl (absorbBytes fam) x = absorbBytes fam x chunks.flatten := by
  induction chunks generalizing x with
  | nil => exact (absorbBytes_nil fam hx hf).symm
  | cons s chunks ih =>
    rw [List.foldl_cons, ih (absorbBytes_buf_length fam s hx hf) (absorbBytes_fill_lt fam s hx hf),
      absorbBytes_append fam s _ hx hf, List.flatten_cons]

/-! ### Padding -/

/-- Marker, zeros and length field end at the end of this block if they fit there, else at the end of the next (R97). -/
theorem fill_add_zeroCount {fill : Nat} (hB : fam.lenFieldSize < fam.blockSize) (hf : fill < fam.blockSize) :
    fill + 1 + zeroCount fam fill + fam.lenFieldSize =
      if fill ≤ fam.blockSize - fam.lenFieldSize - 1 then fam.blockSize else 2 * fam.blockSize := by
  rw [zeroCount, Nat.mod_eq_of_lt hf]
  split
  · next hfits =>
    rw [show 2 * fam.blockSize - fam.lenFieldSize - 1 - fill =
      fam.blockSize - fam.lenFieldSize - 1 - fill + fam.blockSize by omega, Nat.add_mod_right,
      Nat.mod_eq_of_lt (by omega)]
    omega
  · next hfits =>
    rw [Nat.mod_eq_of_lt (by omega)]
    omega

/-- The zeros bring the fill cursor to where the length field begins (R97). -/
theorem fill_add_zeroCount_mod {fill : Nat} (hB : fam.lenFieldSize < fam.blockSize) (hl : 0 < fam.lenFieldSize)
    (hf : fill < fam.blockSize) :
    (fill + 1 + zeroCount fam fill) % fam.blockSize = fam.blockSize - fam.lenFieldSize := by
  have hend := fill_add_zeroCount fam hB hf
  split at hend
  · rw [Nat.mod_eq_of_lt (by omega)]
    omega
  · rw [show fill + 1 + zeroCount fam fill = fam.blockSize - fam.lenFieldSize + fam.blockSize by omega,
      Nat.add_mod_right, Nat.mod_eq_of_lt (by omega)]

/-- All that `Finalize` pushes ends at the end of a block: of this one if it fits there, else of the next (R97). -/
theorem fill_add_padding_length {fill : Nat} (l : Word64) (hB : fam.lenFieldSize < fam.blockSize)
    (hf : fill < fam.blockSize) (hlen : (fam.lenField l).length = fam.lenFieldSize) :
    fill + ([0x80] ++ List.replicate (zeroCount fam fill) 0x00 ++ fam.lenField l : List Byte).length =
      if fill ≤ fam.blockSize - fam.lenFieldSize - 1 then fam.blockSize else 2 * fam.blockSize := by
  rw [← fill_add_zeroCount fam hB hf]
  simp only [List.length_append, List.length_singleton, List.length_replicate, hlen, Nat.add_assoc]

/-- Padding leaves the buffer empty (R97). -/
theorem padCtx_fill (hB : fam.lenFieldSize < fam.blockSize) (hl : 0 < fam.lenFieldSize)
    (hf : x.fill < fam.blockSize) (hlen : (fam.lenField x.count).length = fam.lenFieldSize) :
    (padCtx fam x).fill = 0 := by
  rw [padCtx_eq_foldl fam hB hl hf, foldl_pushByte_fill fam _ hf, fill_add_padding_length fam x.count hB hf hlen]
  split
  · exact Nat.mod_self _
  · exact Nat.mul_mod_left 2 _

end

/-! ### The number of compressions -/

@[simp] theorem countingFamily_blockSize (a : Alg) : (countingFamily a).blockSize = a.blockSize := rfl
@[simp] theorem countingFamily_compress (a : Alg) (n : Nat) (blk : List Byte) :
    (countingFamily a).compress n blk = n + 1 := rfl

theorem foldl_countingCompress (a : Alg) (blocks : List (List Byte)) (n : Nat) :
    blocks.foldl (countingFamily a).compress n = n + blocks.length := by
  induction blocks generalizing n with
  | nil => rfl
  | cons blk blocks ih =>
    rw [List.foldl_cons, ih, countingFamily_compress, List.length_cons]
    omega

section
variable {a : Alg} {x : HashCtx Nat}

theorem foldl_pushByte_counting (s : List Byte) (hx : x.buf.length = a.blockSize) (hf : x.fill < a.blockSize) :
    (s.foldl (pushByte (countingFamily a)) x).h = x.h + (x.fill + s.length) / a.blockSize := by
  rw [foldl_pushByte_h (countingFamily a) s hx hf, foldl_countingCompress, blocksOf_length, List.length_append,
    buffered_length (countingFamily a) hx hf, countingFamily_blockSize]

/-- Absorbing compresses as often as it completes a block (R94). -/
theorem absorbBytes_counting (s : List Byte) (hx : x.buf.length = a.blockSize) (hf : x.fill < a.blockSize) :
    (absorbBytes (countingFamily a) x s).h = x.h + (x.fill + s.length) / a.blockSize := by
  rw [absorbBytes_eq_withCount (countingFamily a) s hx hf]
  exact foldl_pushByte_counting s hx hf

/-- Padding compresses once if it fits the current block, else twice (R97). -/
theorem padCtx_counting (hx : x.buf.length = a.blockSize) (hf : x.fill < a.blockSize) :
    (padCtx (countingFamily a) x).h = x.h + if x.fill ≤ a.blockSize - a.lenFieldSize - 1 then 1 else 2 := by
  have hlen := fill_add_padding_length (countingFamily a) x.count (lenFieldSize_lt a) hf (lenFieldOf_length a _)
  rw [padCtx_eq_foldl (countingFamily a) (lenFieldSize_lt a) (lenFieldSize_pos a) hf, foldl_pushByte_counting _ hx hf]
  by_cases hfits : x.fill ≤ a.blockSize - a.lenFieldSize - 1
  · rw [if_pos hfits, hlen.trans (if_pos hfits), countingFamily_blockSize, Nat.div_self (blockSize_pos a)]
  · rw [if_neg hfits, hlen.trans (if_neg hfits), countingFamily_blockSize, Nat.mul_div_cancel 2 (blockSize_pos a)]

end

/-- Settles O36: the padding pushes `zeroCount` zeros, which end it at a block boundary. -/
theorem paddingMachine : Obligations.PaddingMachine := by
  unfold Obligations.PaddingMachine
  intro a x hshape
  refine ⟨zeroCount (familyOf a) x.fill, Nat.mod_lt _ (blockSize_pos a), ?_, ?_, ?_, rfl, ?_⟩
  · exact fill_add_zeroCount_mod (familyOf a) (lenFieldSize_lt a) (lenFieldSize_pos a) hshape.fill
  · exact padCtx_eq_foldl (familyOf a) (lenFieldSize_lt a) (lenFieldSize_pos a) hshape.fill
  · exact padCtx_fill (familyOf a) (lenFieldSize_lt a) (lenFieldSize_pos a) hshape.fill (lenFieldOf_length a _)
  · rw [padCtx_counting hshape.buf hshape.fill, Nat.zero_add]

/-- Settles O38: the chunks count as one message, absorbed into an empty buffer and then padded. -/
theorem compressionCounts : Obligations.CompressionCounts := by
  unfold Obligations.CompressionCounts
  intro a x chunks hx
  have hbuf : (initCtx (countingFamily a) x).buf.length = (countingFamily a).blockSize := hx
  have hfill : (initCtx (countingFamily a) x).fill < (countingFamily a).blockSize := blockSize_pos a
  have hcount : (absorbBytes (countingFamily a) (initCtx (countingFamily a) x) chunks.flatten).h =
      chunks.flatten.length / a.blockSize := by
    rw [absorbBytes_counting _ hbuf hfill]
    simp [initCtx, countingFamily]
  have hrest : (absorbBytes (countingFamily a) (initCtx (countingFamily a) x) chunks.flatten).fill =
      chunks.flatten.length % a.blockSize := by
    rw [absorbBytes_fill (countingFamily a) _ hbuf hfill]
    simp [initCtx]
  rw [foldl_absorbBytes (countingFamily a) chunks hbuf hfill]
  refine ⟨hcount, ?_⟩
  rw [padCtx_counting (absorbBytes_buf_length (countingFamily a) _ hbuf hfill)
    (absorbBytes_fill_lt (countingFamily a) _ hbuf hfill), hcount, hrest]

end Sys2Proof.Machine
end

section
/-! The hash commands complete (40_hash_commands.md R91, R92, R95, R98): the state each of them answers. -/

namespace Sys2Proof.Machine

/-- With the default parameters of R9, `DESC` answers the sizes its `ALG` has by default (R91). -/
theorem execDesc_of_default {s : State} {a : Alg} (hparams : s.params = Params.default s.alg) (halg : s.alg = a) :
    execDesc s = .next { s with rsp := descResponse (Params.default a) a } := by
  rw [execDesc_eq, hparams, halg]

/-- Settles O43: the bytes absorbed are those read from the operand, one by one. -/
theorem absorbCompletes : Obligations.AbsorbCompletes := by
  unfold Obligations.AbsorbCompletes
  intro s addr len hactive hvalid hlimit
  exact ⟨Memory.readBytes s.mem addr.toNat len.toNat, readBytes_length _ _ _,
    fun i hi => readBytes_getElem? _ _ _ i hi, execAbsorb_eq hactive ((rangeOk_iff _ _ _).2 hvalid) hlimit⟩

/-- Settles O45: the digest has `OUT` bytes, so writing it is read back inside the output range and changes no byte
outside it. -/
theorem finalCompletes : Obligations.FinalCompletes := by
  unfold Obligations.FinalCompletes
  intro s out hinv hactive hvalid
  have hlen : (finalize (familyOf s.alg) s.ctx).length = s.alg.outSize := finalize_length hinv.ctx
  refine ⟨finalized out s, execFinal_eq hactive ((rangeOk_iff _ _ _).2 hvalid), hlen, fun i hi => ?_, fun c hc => ?_,
    rfl, rfl, rfl, rfl, spentCtx_alg s.alg s.draws, rfl, rfl⟩
  · exact (get_writeBytes_inside out.toNat _ hinv.memCanonical (hlen ▸ hi)).symm
  · exact get_writeBytes_outside s.mem out.toNat _ (hlen ▸ hc)

/-- Settles O41: `INIT` reads nothing of the state but its `ALG`, and the vectors are the model's constants. -/
theorem initCompletes : Obligations.InitCompletes := by
  unfold Obligations.InitCompletes
  exact ⟨execInit_eq, rfl, rfl, rfl, rfl, rfl⟩

/-- Settles O42: `DESC` answers the sizes of its `ALG`; the default parameters fix `CTX_SIZE`. -/
theorem descCompletes : Obligations.DescCompletes := by
  unfold Obligations.DescCompletes
  exact ⟨execDesc_eq, fun _ hparams => ⟨execDesc_of_default hparams, execDesc_of_default hparams⟩⟩

end Sys2Proof.Machine
end

section
/-! `Compress` of `F128` (41_compress_f128.md R122 to R126): the message word each round uses, the mixing functions bit by
bit, and the four words before each of the 64 rounds. -/

namespace Sys2Proof.Machine

/-- Settles O21: the quadrant of a round picks its formula; the written list and its four rows are finite facts. -/
theorem messageWordOrder : Obligations.MessageWordOrder := by
  unfold Obligations.MessageWordOrder
  refine ⟨fun i hi => ?_, fun i hlo hhi => ?_, fun i hlo hhi => ?_, fun i hlo hhi => ?_, by decide, by decide⟩
  · simp only [g128, Nat.div_eq_of_lt hi]
  · simp only [g128, show i / 16 = 1 by omega]
  · simp only [g128, show i / 16 = 2 by omega]
  · simp only [g128, show i / 16 = 3 by omega]

theorem mix128_zero_getLsbD (b c d : Word32) {i : Nat} (hi : i < 32) :
    (mix128 0 b c d).getLsbD i = if b.getLsbD i then c.getLsbD i else d.getLsbD i := by
  simp only [mix128, BitVec.getLsbD_or, BitVec.getLsbD_and, BitVec.getLsbD_not, hi]
  cases b.getLsbD i <;> simp

/-- Quadrant 1 is quadrant 0 with the three words moved round: `d` selects. -/
theorem mix128_one (b c d : Word32) : mix128 1 b c d = mix128 0 d b c := rfl

theorem mix128_two_getLsbD (b c d : Word32) (i : Nat) :
    (mix128 2 b c d).getLsbD i = ((b.getLsbD i != c.getLsbD i) != d.getLsbD i) := by
  simp only [mix128, BitVec.getLsbD_xor]

theorem mix128_three_getLsbD (b c d : Word32) {i : Nat} (hi : i < 32) :
    (mix128 3 b c d).getLsbD i = (c.getLsbD i != (b.getLsbD i || !d.getLsbD i)) := by
  simp only [mix128, BitVec.getLsbD_xor, BitVec.getLsbD_or, BitVec.getLsbD_not, hi, decide_true, Bool.true_and]

theorem ch_getLsbD {w : Nat} (e f g : BitVec w) {i : Nat} (hi : i < w) :
    (ch e f g).getLsbD i = if e.getLsbD i then f.getLsbD i else g.getLsbD i := by
  simp only [ch, BitVec.getLsbD_xor, BitVec.getLsbD_and, BitVec.getLsbD_not, hi]
  cases e.getLsbD i <;> simp

theorem maj_getLsbD {w : Nat} (a b c : BitVec w) (i : Nat) :
    (maj a b c).getLsbD i = decide (2 ≤ (a.getLsbD i).toNat + (b.getLsbD i).toNat + (c.getLsbD i).toNat) := by
  simp only [maj, BitVec.getLsbD_xor, BitVec.getLsbD_and]
  cases a.getLsbD i <;> cases b.getLsbD i <;> cases c.getLsbD i <;> rfl

/-- Settles O20: every operation works bit by bit, and the selecting bit decides. -/
theorem mixingFunctionsBitByBit : Obligations.MixingFunctionsBitByBit := by
  unfold Obligations.MixingFunctionsBitByBit
  refine ⟨fun b c d i hi => ⟨mix128_zero_getLsbD b c d hi, ?_, mix128_two_getLsbD b c d i,
    mix128_three_getLsbD b c d hi⟩, fun w x y z i hi => ⟨ch_getLsbD x y z hi, maj_getLsbD x y z i⟩⟩
  rw [mix128_one, mix128_zero_getLsbD d b c hi]

theorem parseLe32_getD (blk : List Byte) {j : Nat} (hj : j < 16) : (parseLe32 blk).getD j 0 =
    le32 (byteAt blk (4 * j)) (byteAt blk (4 * j + 1)) (byteAt blk (4 * j + 2)) (byteAt blk (4 * j + 3)) := by
  simp [parseLe32, hj]

/-- The words `a, b, c, d` before round `i` of `F128` (R126), with `m` the message words: after the rounds below `i`. -/
def wordsBefore128 (m : List Word32) (hin : Quad) (i : Nat) : Quad := (List.range i).foldl (round128 m) hin

@[simp] theorem wordsBefore128_zero (m : List Word32) (hin : Quad) : wordsBefore128 m hin 0 = hin := rfl

theorem wordsBefore128_succ (m : List Word32) (hin : Quad) (i : Nat) :
    wordsBefore128 m hin (i + 1) = round128 m (wordsBefore128 m hin i) i := by
  rw [wordsBefore128, List.range_succ, List.foldl_append]
  rfl

/-- Settles O23: the tables are finite facts; the four sequences are the words before each round, and the equations of
round `i` are the round function on the words before it. -/
theorem compressF128Rounds : Obligations.CompressF128Rounds := by
  unfold Obligations.CompressF128Rounds
  refine ⟨by decide, rfl, fun hin blk _ => ?_⟩
  refine ⟨fun j => (parseLe32 blk).getD j 0, fun i => (wordsBefore128 (parseLe32 blk) hin i).a,
    fun i => (wordsBefore128 (parseLe32 blk) hin i).b, fun i => (wordsBefore128 (parseLe32 blk) hin i).c,
    fun i => (wordsBefore128 (parseLe32 blk) hin i).d, fun _ => parseLe32_getD blk, rfl, rfl, rfl, rfl,
    fun i _ => ?_, rfl⟩
  simp only [wordsBefore128_succ]
  exact ⟨rfl, rfl, rfl, rfl⟩

end Sys2Proof.Machine
end

section
/-! The length field and the digest of each family as bytes (41_compress_f128.md R127, R128; 42_compress_f512.md R149,
R150): the value of the eight bytes of a word, and the place of a word's byte among the bytes of several words. -/

namespace Sys2Proof.Machine

theorem foldr_tole64 (x : Word64) : (tole64 x).foldr (fun b n => b.toNat + 256 * n) 0 = x.toNat := by
  have hlt : x.toNat < 2 ^ 64 := x.isLt
  simp only [tole64, List.foldr_cons, List.foldr_nil, BitVec.extractLsb'_toNat, Nat.shiftRight_eq_div_pow]
  omega

/-- Read from its other end, the big-endian word is the little-endian one. -/
theorem foldl_tobe64 (x : Word64) : (tobe64 x).foldl (fun n b => 256 * n + b.toNat) 0 = x.toNat := by
  simpa only [tobe64_eq_reverse, List.foldl_reverse, Nat.add_comm] using foldr_tole64 x

theorem lenField512_getElem? (l : Word64) {k : Nat} (hk : k < 8) : (lenField512 l)[k]? = some 0 := by
  rw [lenField512, List.getElem?_append_left (by simpa using hk), List.getElem?_replicate_of_lt hk]

/-- The eight zero bytes in front leave the value at 0 (R149). -/
theorem foldl_lenField512 (l : Word64) : (lenField512 l).foldl (fun n b => 256 * n + b.toNat) 0 = l.toNat := by
  rw [lenField512, List.foldl_append]
  exact foldl_tobe64 l

/-- Settles O28: each field is the eight bytes of the length in one order or the other, for `F512` after eight zeros. -/
theorem lengthFields : Obligations.LengthFields := by
  unfold Obligations.LengthFields
  refine fun l => ⟨lenFieldOf_length .f128 l, foldr_tole64 l, lenFieldOf_length .f512 l,
    fun _ => lenField512_getElem? l, foldl_lenField512 l, ?_⟩
  rintro a (rfl | rfl)
  · exact ⟨lenFieldOf_length .s1 l, foldl_tobe64 l⟩
  · exact ⟨lenFieldOf_length .s256 l, foldl_tobe64 l⟩

@[simp] theorem tobe32_length (x : Word32) : (tobe32 x).length = 4 := rfl

theorem tobe32_eq_reverse (x : Word32) : tobe32 x = (tole32 x).reverse := rfl

theorem tobe32_getElem? (x : Word32) {k : Nat} (hk : k < 4) :
    (tobe32 x)[k]? = some (x.extractLsb' (24 - 8 * k) 8) := by
  have hbyte : 8 * (3 - k) = 24 - 8 * k := by omega
  rw [tobe32_eq_reverse, List.getElem?_reverse hk, tole32_length, tole32_getElem? x (by omega), ← hbyte]

/-- Of words written one after another, `n` bytes each, byte `k` of word `j` stands at place `n * j + k`. -/
theorem flatMap_getElem? {α β : Type} {f : α → List β} {n : Nat} (hf : ∀ x, (f x).length = n) {xs : List α}
    {j k : Nat} {x : α} (hx : xs[j]? = some x) (hk : k < n) : (xs.flatMap f)[n * j + k]? = (f x)[k]? := by
  induction xs generalizing j with
  | nil => simp at hx
  | cons y ys ih =>
    rw [List.flatMap_cons]
    cases j with
    | zero =>
      obtain rfl : y = x := by simpa using hx
      rw [Nat.mul_zero, Nat.zero_add, List.getElem?_append_left (by rwa [hf])]
    | succ j =>
      have hplace : n * (j + 1) + k = (f y).length + (n * j + k) := by rw [hf, Nat.mul_succ]; omega
      rw [hplace, List.getElem?_append_right (Nat.le_add_right _ _), Nat.add_sub_cancel_left]
      exact ih (by simpa using hx)

theorem serializeChain_f128 (v : Quad) : serializeChain (.f128 v) = [v.a, v.b, v.c, v.d].flatMap tole32 := rfl

theorem serializeChain_f512 (v : Oct 64) :
    serializeChain (.f512 v) = [v.a, v.b, v.c, v.d, v.e, v.f, v.g, v.h].flatMap tobe64 := rfl

theorem serializeChain_s1 (v : Pent) : serializeChain (.s1 v) = [v.a, v.b, v.c, v.d, v.e].flatMap tobe32 := rfl

theorem serializeChain_s256 (v : Oct 32) :
    serializeChain (.s256 v) = [v.a, v.b, v.c, v.d, v.e, v.f, v.g, v.h].flatMap tobe32 := rfl

/-- Settles O29: a digest is the bytes of its words one after another, so its bytes stand at the places of its words. -/
theorem digestByteOrder : Obligations.DigestByteOrder := by
  unfold Obligations.DigestByteOrder
  refine ⟨fun v => ⟨serializeChain_length (.f128 v), fun j k x hx hk => ?_⟩,
    fun v => ⟨serializeChain_length (.f512 v), fun j k x hx hk => ?_⟩,
    fun v => ⟨serializeChain_length (.s1 v), fun j k x hx hk => ?_⟩,
    fun v => ⟨serializeChain_length (.s256 v), fun j k x hx hk => ?_⟩⟩
  · rw [serializeChain_f128, flatMap_getElem? tole32_length hx hk, tole32_getElem? x hk]
  · rw [serializeChain_f512, flatMap_getElem? tobe64_length hx hk, tobe64_getElem? x hk]
  · rw [serializeChain_s1, flatMap_getElem? tobe32_length hx hk, tobe32_getElem? x hk]
  · rw [serializeChain_s256, flatMap_getElem? tobe32_length hx hk, tobe32_getElem? x hk]

end Sys2Proof.Machine
end

section
/-! Lists that grow by one word at a time, as the message schedules of 42_compress_f512.md R146 and of
44_optional_siblings.md R182, R183 do: a word once appended stays, so the finished list obeys the recurrence at every
place. -/

namespace Sys2Proof.Machine

variable {α : Type}

/-- The list `ws` after `n` words were appended, word `k` of them computed by `next` from the list before it. -/
def grown (next : List α → Nat → α) (ws : List α) (n : Nat) : List α :=
  (List.range n).foldl (fun l k => l ++ [next l k]) ws

@[simp] theorem grown_zero (next : List α → Nat → α) (ws : List α) : grown next ws 0 = ws := rfl

theorem grown_succ (next : List α → Nat → α) (ws : List α) (n : Nat) :
    grown next ws (n + 1) = grown next ws n ++ [next (grown next ws n) n] := by
  rw [grown, List.range_succ, List.foldl_append]
  rfl

@[simp] theorem grown_length (next : List α → Nat → α) (ws : List α) (n : Nat) :
    (grown next ws n).length = ws.length + n := by
  induction n with
  | zero => rfl
  | succ n ih => rw [grown_succ, List.length_append, ih, List.length_singleton, Nat.add_assoc]

theorem grown_prefix (next : List α → Nat → α) (ws : List α) {m n : Nat} (hmn : m ≤ n) :
    grown next ws m <+: grown next ws n := by
  induction n, hmn using Nat.le_induction with
  | base => exact List.prefix_rfl
  | succ n _ ih =>
    rw [grown_succ]
    exact ih.trans (List.prefix_append _ _)

theorem grown_getD_of_lt (next : List α → Nat → α) (ws : List α) {m n i : Nat} (hmn : m ≤ n)
    (hi : i < ws.length + m) (d : α) : (grown next ws n).getD i d = (grown next ws m).getD i d := by
  obtain ⟨later, hlater⟩ := grown_prefix next ws hmn
  rw [← hlater, List.getD_append _ _ _ _ (by rwa [grown_length])]

/-- Appended word `k` is what `next` made of the list before it. -/
theorem grown_getD_appended (next : List α → Nat → α) (ws : List α) {n k : Nat} (hk : k < n) (d : α) :
    (grown next ws n).getD (ws.length + k) d = next (grown next ws k) k := by
  rw [grown_getD_of_lt next ws (m := k + 1) hk (by omega), grown_succ]
  simp [List.getD_eq_getElem?_getD]

end Sys2Proof.Machine
end

section
/-! `Compress` of `F512` (42_compress_f512.md R143 to R148): the schedule word at each place and the eight words before
each round, for the shape that `F512` shares with `S256` (44_optional_siblings.md R182). -/

namespace Sys2Proof.Machine

theorem schedule_eq_grown {w : Nat} (p : ShaShape w) (blk : List (BitVec w)) :
    schedule p blk = grown (fun ws k => scheduleWord p ws (k + 16)) blk (p.rounds - 16) := rfl

theorem schedule_getD_block {w : Nat} (p : ShaShape w) {blk : List (BitVec w)} (hblk : blk.length = 16) {t : Nat}
    (ht : t < 16) : (schedule p blk).getD t 0 = blk.getD t 0 := by
  rw [schedule_eq_grown, grown_getD_of_lt _ _ (Nat.zero_le _) (by omega), grown_zero]

/-- A schedule word looks back 2, 7, 15 and 16 places, so only the words before it matter (R146). -/
theorem scheduleWord_congr {w : Nat} (p : ShaShape w) {ws ws' : List (BitVec w)} {t : Nat} (ht : 0 < t)
    (h : ∀ i < t, ws.getD i 0 = ws'.getD i 0) : scheduleWord p ws t = scheduleWord p ws' t := by
  rw [scheduleWord, scheduleWord, h (t - 2) (by omega), h (t - 7) (by omega), h (t - 15) (by omega),
    h (t - 16) (by omega)]

/-- The recurrence of R146 holds in the finished schedule. -/
theorem schedule_getD_recurrence {w : Nat} (p : ShaShape w) {blk : List (BitVec w)} (hblk : blk.length = 16) {t : Nat}
    (hlo : 16 ≤ t) (hhi : t < p.rounds) :
    (schedule p blk).getD t 0 = scheduleWord p (schedule p blk) t := by
  obtain ⟨k, rfl⟩ := Nat.exists_eq_add_of_le hlo
  have happended := grown_getD_appended (fun ws k => scheduleWord p ws (k + 16)) blk
    (show k < p.rounds - 16 by omega) 0
  rw [hblk, Nat.add_comm k 16] at happended
  rw [schedule_eq_grown, happended]
  refine scheduleWord_congr p (by omega) fun i hi => ?_
  exact (grown_getD_of_lt _ _ (by omega) (by omega) 0).symm

/-- The words `a` to `h` before round `t` (R147), with `ws` the schedule: after the rounds below `t`. -/
def wordsBeforeSha {w : Nat} (p : ShaShape w) (ws : List (BitVec w)) (hin : Oct w) (t : Nat) : Oct w :=
  (List.range t).foldl (shaRound p ws) hin

theorem wordsBeforeSha_succ {w : Nat} (p : ShaShape w) (ws : List (BitVec w)) (hin : Oct w) (t : Nat) :
    wordsBeforeSha p ws hin (t + 1) = shaRound p ws (wordsBeforeSha p ws hin t) t := by
  rw [wordsBeforeSha, List.range_succ, List.foldl_append]
  rfl

/-- `T1` of round `t` on the words `v` (R147). -/
def shaT1 {w : Nat} (p : ShaShape w) (ws : List (BitVec w)) (v : Oct w) (t : Nat) : BitVec w :=
  v.h + p.bigSigma1 v.e + ch v.e v.f v.g + p.k t + ws.getD t 0

/-- `T2` on the words `v` (R147). -/
def shaT2 {w : Nat} (p : ShaShape w) (v : Oct w) : BitVec w := p.bigSigma0 v.a + maj v.a v.b v.c

@[simp] theorem parseBe64_length (blk : List Byte) : (parseBe64 blk).length = 16 := by simp [parseBe64]

theorem parseBe64_getD (blk : List Byte) {j : Nat} (hj : j < 16) : (parseBe64 blk).getD j 0 =
    be64 (byteAt blk (8 * j)) (byteAt blk (8 * j + 1)) (byteAt blk (8 * j + 2)) (byteAt blk (8 * j + 3))
      (byteAt blk (8 * j + 4)) (byteAt blk (8 * j + 5)) (byteAt blk (8 * j + 6)) (byteAt blk (8 * j + 7)) := by
  simp [parseBe64, hj]

/-- Settles O24: the schedule words are the places of the finished schedule, the eight sequences are the words before
each round, and the equations of round `t` are the round function on the words before it. -/
theorem compressF512Rounds : Obligations.CompressF512Rounds := by
  unfold Obligations.CompressF512Rounds
  intro hin blk _
  have hlen := parseBe64_length blk
  let ws := schedule sha512Shape (parseBe64 blk)
  let v := wordsBeforeSha sha512Shape ws hin
  refine ⟨fun t => ws.getD t 0, fun t => (v t).a, fun t => (v t).b, fun t => (v t).c, fun t => (v t).d,
    fun t => (v t).e, fun t => (v t).f, fun t => (v t).g, fun t => (v t).h, fun t => shaT1 sha512Shape ws (v t) t,
    fun t => shaT2 sha512Shape (v t), fun j hj => ?_, fun t hlo hhi => schedule_getD_recurrence sha512Shape hlen hlo hhi,
    rfl, rfl, rfl, rfl, rfl, rfl, rfl, rfl, fun t _ => ?_, rfl⟩
  · exact (schedule_getD_block sha512Shape hlen hj).trans (parseBe64_getD blk hj)
  · have hround : v (t + 1) = shaRound sha512Shape ws (v t) t := wordsBeforeSha_succ sha512Shape ws hin t
    simp only [hround]
    exact ⟨rfl, rfl, rfl, rfl, rfl, rfl, rfl, rfl, rfl, rfl⟩

end Sys2Proof.Machine
end

section
/-! The constants of `F512` (42_compress_f512.md R140, R141). Each is the fraction part, cut to 64 bits, of a root of a
prime. The integer part of the root needs no check of its own: the bounds on the 64 fraction bits give it. -/

namespace Sys2Proof.Machine

/-- The first eighty primes, in the order of R141. -/
def rootPrimes : List Nat :=
  [2, 3, 5, 7, 11, 13, 17, 19, 23, 29, 31, 37, 41, 43, 47, 53, 59, 61, 67, 71] ++
  [73, 79, 83, 89, 97, 101, 103, 107, 109, 113, 127, 131, 137, 139, 149, 151, 157, 163, 167, 173] ++
  [179, 181, 191, 193, 197, 199, 211, 223, 227, 229, 233, 239, 241, 251, 257, 263, 269, 271, 277, 281] ++
  [283, 293, 307, 311, 313, 317, 331, 337, 347, 349, 353, 359, 367, 373, 379, 383, 389, 397, 401, 409]

/-- The `n`-th root of `p` is `r` and then the 64 fraction bits of `k`: `(r + k / 2^64)^n ≤ p`, and one more in the
last of these bits is too much. -/
def RootIs (n p r k : Nat) : Prop :=
  (r * 2 ^ 64 + k) ^ n ≤ p * 2 ^ (64 * n) ∧ p * 2 ^ (64 * n) < (r * 2 ^ 64 + k + 1) ^ n

/-- Dividing the bounds on the root by `2^64` leaves the bounds on its integer part. -/
theorem RootIs.integerPart {n p r k : Nat} (h : RootIs n p r k) (hk : k < 2 ^ 64) : r ^ n ≤ p ∧ p < (r + 1) ^ n := by
  obtain ⟨hlo, hhi⟩ := h
  have hscale : ∀ x : Nat, (x * 2 ^ 64) ^ n = x ^ n * 2 ^ (64 * n) := fun x => by rw [Nat.mul_pow, ← Nat.pow_mul]
  have hpos : 0 < 2 ^ (64 * n) := Nat.two_pow_pos _
  constructor
  · refine Nat.le_of_mul_le_mul_right ?_ hpos
    calc r ^ n * 2 ^ (64 * n) = (r * 2 ^ 64) ^ n := (hscale r).symm
      _ ≤ (r * 2 ^ 64 + k) ^ n := Nat.pow_le_pow_left (Nat.le_add_right _ _) n
      _ ≤ p * 2 ^ (64 * n) := hlo
  · refine Nat.lt_of_mul_lt_mul_right (a := 2 ^ (64 * n)) ?_
    calc p * 2 ^ (64 * n) < (r * 2 ^ 64 + k + 1) ^ n := hhi
      _ ≤ ((r + 1) * 2 ^ 64) ^ n := Nat.pow_le_pow_left (by omega) n
      _ = (r + 1) ^ n * 2 ^ (64 * n) := hscale (r + 1)

theorem rootPrimes_eq_filter : rootPrimes = (List.range 410).filter fun n =>
    decide (2 ≤ n) && (List.range n).all fun d => decide (d < 2) || decide (n % d ≠ 0) := by
  decide +kernel

theorem k512_rootIs : ∀ t < 80, ∃ r ≤ 7, RootIs 3 (rootPrimes.getD t 0) r (k512 t).toNat := by
  unfold RootIs
  decide +kernel

/-- The initial words in the order of R140. -/
def iv512Words : List Word64 := [iv512.a, iv512.b, iv512.c, iv512.d, iv512.e, iv512.f, iv512.g, iv512.h]

theorem iv512_rootIs : ∀ t < 8, ∃ r ≤ 4, RootIs 2 (rootPrimes.getD t 0) r (iv512Words.getD t 0).toNat := by
  unfold RootIs
  decide +kernel

/-- Settles O22: the bounds on the root are finite facts about the two tables, and give those on its integer part. -/
theorem rootConstants : Obligations.RootConstants := by
  unfold Obligations.RootConstants
  refine ⟨rootPrimes, rootPrimes_eq_filter, rfl, fun t ht => ?_, fun t ht => ?_⟩
  · obtain ⟨r, hr, hroot⟩ := k512_rootIs t ht
    obtain ⟨hintLo, hintHi⟩ := hroot.integerPart (k512 t).isLt
    exact ⟨r, hr, hintLo, hintHi, hroot⟩
  · obtain ⟨r, hr, hroot⟩ := iv512_rootIs t ht
    obtain ⟨hintLo, hintHi⟩ := hroot.integerPart (iv512Words.getD t 0).isLt
    exact ⟨r, hr, hintLo, hintHi, hroot⟩

end Sys2Proof.Machine
end

section
/-! The hash cycles of `HMAC` (43_hmac.md R163): the two inputs of a cycle are absorbed as one message, so its digest is
`Hash` of that message (40_hash_commands.md R100), whatever stood in the scratch, and the number of its compressions
follows from the lengths (R168). -/

namespace Sys2Proof.Machine

section
variable {χ : Type} (fam : Family χ) {x : HashCtx χ}

/-! ### The digest of a cycle -/

/-- `InitCtx`, `AbsorbBytes`, `Finalize` give `Hash` of the bytes absorbed, whatever the buffer held before (R100). -/
theorem finalize_absorbBytes_initCtx (m : List Byte) (hB : fam.lenFieldSize < fam.blockSize)
    (hl : 0 < fam.lenFieldSize) (hx : x.buf.length = fam.blockSize) :
    finalize fam (absorbBytes fam (initCtx fam x) m) = hashOf fam m := by
  have hf : (initCtx fam x).fill < fam.blockSize := (Nat.zero_le _).trans_lt hB
  have hrest : (absorbBytes fam (initCtx fam x) m).fill = m.length % fam.blockSize := by
    rw [absorbBytes_fill fam (x := initCtx fam x) m hx hf]
    exact congrArg (· % fam.blockSize) (Nat.zero_add m.length)
  have hpad : ([0x80] ++ List.replicate (zeroCount fam (m.length % fam.blockSize)) 0x00 ++
      fam.lenField (absorbBytes fam (initCtx fam x) m).count : List Byte) = padding fam m.length := by
    simp [padding, zeroCount]
  rw [finalize, padCtx_eq_foldl fam hB hl (absorbBytes_fill_lt fam (x := initCtx fam x) m hx hf), hrest, hpad,
    absorbBytes_eq_withCount fam (x := initCtx fam x) m hx hf, foldl_pushByte_withCount, ← List.foldl_append]
  exact congrArg fam.serialize (foldl_pushByte_h fam (x := initCtx fam x) (m ++ padding fam m.length) hx hf)

/-- The two `AbsorbBytes` of a cycle are one of the concatenation (R103, R163). -/
theorem absorbTwo_eq_absorbBytes (first second : List Byte) (hB : 0 < fam.blockSize)
    (hx : x.buf.length = fam.blockSize) :
    absorbTwo fam x first second = absorbBytes fam (initCtx fam x) (first ++ second) :=
  absorbBytes_append fam (x := initCtx fam x) first second hx hB

end

theorem finalize_absorbTwo {a : Alg} {x : HashCtx Chain} (first second : List Byte)
    (hx : x.buf.length = a.blockSize) :
    finalize (familyOf a) (absorbTwo (familyOf a) x first second) = hashOf (familyOf a) (first ++ second) := by
  rw [absorbTwo_eq_absorbBytes (familyOf a) first second (blockSize_pos a) hx,
    finalize_absorbBytes_initCtx (familyOf a) _ (lenFieldSize_lt a) (lenFieldSize_pos a) hx]

/-! ### The number of compressions of a cycle -/

/-- A cycle over a key block and further bytes compresses the key block, the full blocks of the bytes, and once or twice
for the padding (R168). -/
theorem padCtx_absorbTwo_counting {a : Alg} {x : HashCtx Nat} {kb : List Byte} (second : List Byte)
    (hx : x.buf.length = a.blockSize) (hkb : kb.length = a.blockSize) :
    (padCtx (countingFamily a) (absorbTwo (countingFamily a) x kb second)).h =
      1 + second.length / a.blockSize +
        if second.length % a.blockSize ≤ a.blockSize - a.lenFieldSize - 1 then 1 else 2 := by
  have hcount := (compressionCounts a x [kb, second] hx).2
  have hlen : [kb, second].flatten.length = a.blockSize + second.length := by simp [hkb]
  rwa [hlen, Nat.add_div_left _ (blockSize_pos a), Nat.add_mod_left, Nat.add_comm (_ / _) 1] at hcount

/-- A digest, its padding marker and the length field fit one block (R8, R180). -/
theorem outSize_le (a : Alg) : a.outSize ≤ a.blockSize - a.lenFieldSize - 1 := by cases a <;> decide

theorem outSize_lt_blockSize (a : Alg) : a.outSize < a.blockSize := by cases a <;> decide

/-- Settles O39: both cycles start on a key block of one full block, and a digest leaves room for the padding. -/
theorem hmacCompressionCounts : Obligations.HmacCompressionCounts := by
  unfold Obligations.HmacCompressionCounts
  intro a x y kb msg idig hx hy hkb hidig
  refine ⟨padCtx_absorbTwo_counting msg hx hkb, ?_⟩
  rw [padCtx_absorbTwo_counting idig hy hkb, hidig, Nat.div_eq_of_lt (outSize_lt_blockSize a),
    Nat.mod_eq_of_lt (outSize_lt_blockSize a), if_pos (outSize_le a)]

end Sys2Proof.Machine
end

section
/-! The key block of `HMAC` (43_hmac.md R164, R165): byte by byte, and as the key extended with zero bytes and masked. -/

namespace Sys2Proof.Machine

/-- The first bytes of a read are a shorter read (R53). -/
theorem readBytes_take (m : Memory) (addr n b : Nat) :
    (Memory.readBytes m addr n).take b = Memory.readBytes m addr (min n b) := by
  obtain h | h := Nat.le_total n b
  · rw [Nat.min_eq_left h, List.take_of_length_le (by rwa [readBytes_length])]
  · obtain ⟨k, rfl⟩ := Nat.exists_eq_add_of_le h
    rw [Nat.min_eq_right h, readBytes_append, List.take_left' (readBytes_length m addr b)]

theorem maskKey_getElem?_key (m : Memory) {b key klen i : Nat} (p : Byte) (hi : i < min klen b) :
    (maskKey m b key klen p)[i]? = some (Memory.get m (key + i) ^^^ p) := by
  rw [maskKey, List.getElem?_append_left (by simpa using hi), List.getElem?_map, readBytes_getElem? m key _ i hi,
    Option.map_some]

theorem maskKey_getElem?_rest (m : Memory) {b key klen i : Nat} (p : Byte) (hle : min klen b ≤ i) (hi : i < b) :
    (maskKey m b key klen p)[i]? = some p := by
  have hlen : ((Memory.readBytes m key (min klen b)).map (· ^^^ p)).length = min klen b := by simp
  rw [maskKey, List.getElem?_append_right (hlen.trans_le hle), hlen, List.getElem?_replicate_of_lt (by omega)]

/-- A zero byte masked is the mask byte, so the masked rest of the block is the masked zero extension of the key (R164). -/
theorem maskKey_eq_paddedKey (m : Memory) (b key klen : Nat) (p : Byte) :
    maskKey m b key klen p = paddedKey b (Memory.readBytes m key klen) p := by
  have hrest : b - min klen b = b - klen := by omega
  have hmask : 0x00 ^^^ p = p := BitVec.zero_xor
  rw [maskKey, paddedKey, readBytes_take, readBytes_length, List.map_append, List.map_replicate, hmask, hrest]

/-- Settles O50: the block is the masked key bytes followed by mask bytes. -/
theorem maskedKeyBlock : Obligations.MaskedKeyBlock := by
  unfold Obligations.MaskedKeyBlock
  exact fun m b key klen p => ⟨maskKey_length m b key klen p, fun _ => maskKey_getElem?_key m p,
    fun _ => maskKey_getElem?_rest m p, maskKey_eq_paddedKey m b key klen p⟩

end Sys2Proof.Machine
end

section
/-! The command `HMAC` (43_hmac.md R161, R162, R167): the tag in closed form, the answer, and the frame. -/

namespace Sys2Proof.Machine

/-- The tag is R167's, whatever stood in the scratch (R162). -/
theorem hmacTag_eq_tagOf {a : Alg} {r : Scratch} (m : Memory) (key klen msg mlen : Nat)
    (h : r.ctx.buf.length = a.blockSize) :
    hmacTag a m key klen msg mlen r =
      tagOf (familyOf a) (Memory.readBytes m key klen) (Memory.readBytes m msg mlen) := by
  have hspent (first second : List Byte) :
      (padCtx (familyOf a) (absorbTwo (familyOf a) r.ctx first second)).buf.length = a.blockSize :=
    (padCtx_shape (absorbTwo_shape h first second)).buf
  simp only [hmacTag, hmacKeyStage, hmacInnerStage, hmacOuterStage, finalize_absorbTwo _ _ (hspent _ _),
    finalize_absorbTwo _ _ h, maskKey_eq_paddedKey, tagOf, familyOf_blockSize]

/-- What `HMAC` answers takes nothing from the scratch it found (R162). -/
theorem tagged_withScratch {s : State} {r : Scratch} (out key klen msg mlen : Word64)
    (hr : r.ctx.buf.length = s.alg.blockSize) (hs : s.scr.ctx.buf.length = s.alg.blockSize) :
    tagged out key klen msg mlen { s with scr := r } = tagged out key klen msg mlen s := by
  have htag : hmacTag s.alg s.mem key.toNat klen.toNat msg.toNat mlen.toNat r =
      hmacTag s.alg s.mem key.toNat klen.toNat msg.toNat mlen.toNat s.scr := by
    rw [hmacTag_eq_tagOf _ _ _ _ _ hr, hmacTag_eq_tagOf _ _ _ _ _ hs]
  rw [tagged, tagged, ← htag]
  rfl

/-- Settles O48: the two ways `HMAC` can complete, told apart by `scratch_avail`. -/
theorem hmacAllocationFailure : Obligations.HmacAllocationFailure := by
  unfold Obligations.HmacAllocationFailure
  intro s out key klen msg mlen
  refine ⟨execHmac_noScratch, fun havail t ht => ?_⟩
  obtain ⟨hnone, -⟩ | ⟨-, -, -, -, -, rfl⟩ := execHmac_next ht
  · exact nomatch havail.symm.trans hnone
  · rfl

/-- Settles O49: without the scratch only the response is written; with it the new state takes nothing from the old
scratch but the tag, which does not depend on it. -/
theorem hmacTouchesOnlyItsScratch : Obligations.HmacTouchesOnlyItsScratch := by
  unfold Obligations.HmacTouchesOnlyItsScratch
  intro s t r out key klen msg mlen hinv hr ht
  obtain ⟨hnone, rfl⟩ | ⟨havail, hkey, hmsg, hout, hlimit, rfl⟩ := execHmac_next ht
  · refine ⟨rfl, rfl, ?_⟩
    rw [if_neg (by simp [hnone])]
    exact execHmac_noScratch (s := { s with scr := r }) hnone
  · refine ⟨rfl, rfl, ?_⟩
    have hrun := execHmac_eq (s := { s with scr := r }) havail hkey hmsg hout hlimit
    rw [if_pos havail]
    exact hrun.trans (congrArg Host.Outcome.next (tagged_withScratch out key klen msg mlen hr.buf hinv.scr.buf))

end Sys2Proof.Machine
end

section
/-! The status of a completed command (60_exceptions.md R201): `OK`, or the `ALLOC_FAIL` of an `HMAC` without its scratch. -/

namespace Sys2Proof.Machine

/-- `OK` is the word zero (R77, R78). -/
theorem respond_ok_head? (s : State) : (s.respond .ok).rsp.head? = some 0 := rfl

/-- The sizes `DESC` answers come after the status word `OK` (R91). -/
theorem descResponse_head? (p : Params) (a : Alg) : (descResponse p a).head? = some 0 := rfl

/-- `ALLOC_FAIL` is the word one, and answering it changes nothing but the response (R161). -/
theorem respond_allocFail (s : State) : s.respond .allocFail = { s with rsp := [1] } := rfl

/-- Settles O55, by cases on the command: each answers `OK` in the only state it can complete in, but for `HMAC`, whose
other way to complete is the one without the scratch. -/
theorem responsesAreOkOrAllocFail : Obligations.ResponsesAreOkOrAllocFail := by
  unfold Obligations.ResponsesAreOkOrAllocFail
  intro i s t h
  cases i with
  | init =>
    obtain rfl := Host.Outcome.next.inj ((execInit_eq s).symm.trans h)
    exact .inl (respond_ok_head? _)
  | absorb addr len =>
    obtain ⟨-, -, -, rfl⟩ := execAbsorb_next h
    exact .inl (respond_ok_head? _)
  | final out =>
    obtain ⟨-, -, rfl⟩ := execFinal_next h
    exact .inl (respond_ok_head? _)
  | hmac out key klen msg mlen =>
    obtain ⟨hnone, rfl⟩ | ⟨-, -, -, -, -, rfl⟩ := execHmac_next h
    · exact .inr ⟨hnone, ⟨out, key, klen, msg, mlen, rfl⟩, respond_allocFail s⟩
    · exact .inl (respond_ok_head? _)
  | desc =>
    obtain rfl := Host.Outcome.next.inj ((execDesc_eq s).symm.trans h)
    exact .inl (descResponse_head? _ _)

end Sys2Proof.Machine
end

section
/-! Reset during a command (70_reset_and_hazards.md R221): what a command leaves of the instance and its inputs, the one
range of host memory it can write, and what is left of both when reset cuts it off. -/

namespace Sys2Proof.Machine

/-- No command changes the instance, its parameters or the inputs. -/
theorem exec_frame {i : Instr} {s u : State} (hctx : CtxShape s.alg s.ctx) (h : exec i s = .next u) :
    u.alg = s.alg ∧ u.params = s.params ∧ u.scratchAvail = s.scratchAvail ∧ u.host = s.host := by
  cases i with
  | init =>
    obtain rfl := Host.Outcome.next.inj ((execInit_eq s).symm.trans h)
    exact ⟨ivOf_alg s.alg, rfl, rfl, rfl⟩
  | absorb addr len =>
    obtain ⟨-, -, -, rfl⟩ := execAbsorb_next h
    exact ⟨(absorbBytes_shape hctx _).alg, rfl, rfl, rfl⟩
  | final out =>
    obtain ⟨-, -, rfl⟩ := execFinal_next h
    exact ⟨spentCtx_alg s.alg s.draws, rfl, rfl, rfl⟩
  | hmac out key klen msg mlen =>
    obtain ⟨-, rfl⟩ | ⟨-, -, -, -, -, rfl⟩ := execHmac_next h
    · exact ⟨rfl, rfl, rfl, rfl⟩
    · exact ⟨rfl, rfl, rfl, rfl⟩
  | desc =>
    obtain rfl := Host.Outcome.next.inj ((execDesc_eq s).symm.trans h)
    exact ⟨rfl, rfl, rfl, rfl⟩

/-- A command without a writing stage, or answering `ALLOC_FAIL`, keeps host memory; any other answers `OK` and writes
`OUT` bytes at its target (R51, R161). -/
theorem exec_mem {i : Instr} {s u : State} (hctx : CtxShape s.alg s.ctx) (hscr : CtxShape s.alg s.scr.ctx)
    (h : exec i s = .next u) :
    ((writeTarget i = none ∨ u.rsp = [statusWord .allocFail]) ∧ u.mem = s.mem) ∨
      ∃ out bs, writeTarget i = some out ∧ u.rsp = [statusWord .ok] ∧ bs.length = s.alg.outSize ∧
        u.mem = Memory.writeBytes s.mem out.toNat bs := by
  cases i with
  | init =>
    obtain rfl := Host.Outcome.next.inj ((execInit_eq s).symm.trans h)
    exact .inl ⟨.inl rfl, rfl⟩
  | absorb addr len =>
    obtain ⟨-, -, -, rfl⟩ := execAbsorb_next h
    exact .inl ⟨.inl rfl, rfl⟩
  | final out =>
    obtain ⟨-, -, rfl⟩ := execFinal_next h
    exact .inr ⟨out, _, rfl, rfl, finalize_length hctx, rfl⟩
  | hmac out key klen msg mlen =>
    obtain ⟨-, rfl⟩ | ⟨-, -, -, -, -, rfl⟩ := execHmac_next h
    · exact .inl ⟨.inr rfl, rfl⟩
    · exact .inr ⟨out, _, rfl, rfl, hmacTag_length s.mem _ _ _ _ hscr.buf, rfl⟩
  | desc =>
    obtain rfl := Host.Outcome.next.inj ((execDesc_eq s).symm.trans h)
    exact .inl ⟨.inl rfl, rfl⟩

theorem statusWord_allocFail_ne_ok : statusWord .allocFail ≠ statusWord .ok := by decide

/-- Cutting off a command that never reaches a writing stage is a plain reset (R221). -/
theorem abandon_of_not_written {i : Instr} {u : State}
    (h : writeTarget i = none ∨ u.rsp = [statusWord .allocFail]) : abandon i u = engineReset u := by
  unfold abandon
  cases ht : writeTarget i with
  | none => rfl
  | some out =>
    have hrsp : u.rsp ≠ [statusWord .ok] := by
      obtain hnone | hfail := h
      · exact nomatch ht.symm.trans hnone
      · simpa [hfail] using statusWord_allocFail_ne_ok
    exact congrArg engineReset (if_neg hrsp)

/-- Cutting off a command with a writing stage also leaves the `OUT` bytes at its target without a value (R221, U11). -/
theorem abandon_of_written {i : Instr} {u : State} {out : Word64} (ht : writeTarget i = some out)
    (hrsp : u.rsp = [statusWord .ok]) :
    abandon i u = engineReset (scrambleBytes out.toNat u.alg.outSize u) := by
  rw [abandon, ht]
  exact congrArg engineReset (if_pos hrsp)

theorem runAndReset_eq {ws : List Word64} {i : Instr} {s u : State} (hd : decode s.params.aw ws = .command i)
    (hu : exec i s = .next u) : runAndReset ws s = .next (abandon i u) := by
  simp only [runAndReset, hd, hu]

/-- A reset during a command takes the move and leaves the command abandoned (R221). -/
theorem step_resetDuring {s u : State} {ws : List Word64} {rest : List HostInput} {i : Instr}
    (hhost : s.host = .resetDuring ws :: rest) (hd : decode s.params.aw ws = .command i)
    (hu : exec i { s with host := rest } = .next u) : step s = .next (abandon i u) := by
  rw [step, hhost]
  exact runAndReset_eq (s := { s with host := rest }) hd hu

/-- Settles O10: a command that never reaches a writing stage changes no memory; of one that does, the write and the
free bytes over it have the same `OUT` addresses, so every other byte is left alone. -/
theorem resetDuringCommand : Obligations.ResetDuringCommand := by
  unfold Obligations.ResetDuringCommand
  intro s u ws rest i hinv hhost hd hu
  obtain ⟨halg, hparams, havail, hrest⟩ := exec_frame (s := { s with host := rest }) hinv.ctx hu
  refine ⟨abandon i u, step_resetDuring hhost hd hu, ?_⟩
  obtain ⟨hnot, hmem⟩ | ⟨out, bs, ht, hok, hlen, hmem⟩ := exec_mem (s := { s with host := rest }) hinv.ctx hinv.scr hu
  · rw [abandon_of_not_written hnot]
    exact ⟨rfl, rfl, (engineReset_alg u).trans halg, hparams, havail, hrest,
      fun _ _ addr _ => congrArg (Memory.get · addr) hmem, fun _ => hmem⟩
  · rw [abandon_of_written ht hok]
    refine ⟨rfl, rfl, (engineReset_alg _).trans halg, hparams, havail, hrest, fun out' ht' addr houtside => ?_, ?_⟩
    · obtain rfl := Option.some.inj (ht.symm.trans ht')
      have hfree : ((List.range u.alg.outSize).map (Config.freeByte u.draws)).length = s.alg.outSize := by
        rw [List.length_map, List.length_range]
        exact congrArg Alg.outSize halg
      calc Memory.get (engineReset (scrambleBytes out.toNat u.alg.outSize u)).mem addr
          = Memory.get u.mem addr := get_writeBytes_outside u.mem out.toNat _ (hfree ▸ houtside)
        _ = Memory.get s.mem addr := by
            rw [hmem]
            exact get_writeBytes_outside s.mem out.toNat bs (hlen ▸ houtside)
    · rintro (hnone | hfail)
      · exact nomatch ht.symm.trans hnone
      · exact absurd (List.cons.inj (hfail.symm.trans hok)).1 statusWord_allocFail_ne_ok

end Sys2Proof.Machine
end

section
/-! The invariant (10_state.md sections 1, 5 and 8): one rule per part of the state that a command or a move writes, and
from them that every step keeps it. -/

namespace Sys2Proof.Machine

/-! ### Host memory -/

theorem inBytes_memValid {p : Params} {addr n c : Nat} (hv : ValidOperand p addr n) (hc : inBytes addr n c) :
    p.memValid c = true := by
  obtain ⟨hlo, hhi⟩ := hc
  obtain rfl | ⟨-, hall⟩ := hv
  · omega
  · simpa [Nat.add_sub_of_le hlo] using hall (c - addr) (by omega)

/-- Writing inside a valid operand lists only addresses that are memory (R50, R55). -/
theorem memValid_of_mem_writeBytes {p : Params} {m : Memory} {addr : Nat} {bs : List Byte}
    (hm : ∀ c ∈ m, p.memValid c.1 = true) (hv : ValidOperand p addr bs.length) :
    ∀ c ∈ Memory.writeBytes m addr bs, p.memValid c.1 = true := fun c hc =>
  (mem_writeBytes hc).elim (hm c) (inBytes_memValid hv)

theorem memValid_of_mem_put {p : Params} {m : Memory} {addr : Nat} {v : Byte}
    (hm : ∀ c ∈ m, p.memValid c.1 = true) (hv : p.memValid addr = true) :
    ∀ c ∈ Memory.put m addr v, p.memValid c.1 = true := fun c hc =>
  (mem_put hc).elim (hm c) fun hca => hca ▸ hv

/-! ### One rule per part of the state -/

section
variable {s : State}

/-- The inputs, the response, the later moves and the draw counter take no part in the invariant. -/
theorem State.Inv.withInputs (h : s.Inv) (avail : Bool) (rsp : List Word64) (host : List HostInput) (draws : Nat) :
    ({ s with scratchAvail := avail, rsp := rsp, host := host, draws := draws } : State).Inv :=
  ⟨h.params, h.memCanonical, h.memValid, h.ctx, h.scr, h.kb, h.idig, h.fillOfCount⟩

theorem State.Inv.withHost (h : s.Inv) (host : List HostInput) : ({ s with host := host } : State).Inv :=
  h.withInputs s.scratchAvail s.rsp host s.draws

theorem State.Inv.withResponse (h : s.Inv) (c : Status) : (s.respond c).Inv :=
  h.withInputs s.scratchAvail [statusWord c] s.host s.draws

theorem State.Inv.withMem (h : s.Inv) {m : Memory} (hm : Memory.wf m = true)
    (hv : ∀ c ∈ m, s.params.memValid c.1 = true) : ({ s with mem := m } : State).Inv :=
  ⟨h.params, hm, hv, h.ctx, h.scr, h.kb, h.idig, h.fillOfCount⟩

theorem State.Inv.withWrite (h : s.Inv) {addr : Nat} {bs : List Byte} (hv : ValidOperand s.params addr bs.length) :
    ({ s with mem := Memory.writeBytes s.mem addr bs } : State).Inv :=
  h.withMem (wf_writeBytes addr bs h.memCanonical) (memValid_of_mem_writeBytes h.memValid hv)

theorem State.Inv.withCtx (h : s.Inv) {x : HashCtx Chain} {p : Phase} (hx : CtxShape s.alg x)
    (hfill : p = .active → x.count.toNat % 8 = 0 ∧ x.fill = x.count.toNat / 8 % s.alg.blockSize) :
    ({ s with ctx := x, phase := p } : State).Inv := by
  have halg : ({ s with ctx := x, phase := p } : State).alg = s.alg := hx.alg
  exact ⟨h.params, h.memCanonical, h.memValid, halg ▸ hx, halg ▸ h.scr, halg ▸ h.kb, halg ▸ h.idig, halg ▸ hfill⟩

theorem State.Inv.withSpentScratch (h : s.Inv) (d : Nat) : ({ s with scr := spentScratch s.alg d } : State).Inv :=
  ⟨h.params, h.memCanonical, h.memValid, h.ctx, spentCtx_shape s.alg d, spentScratch_kb_length s.alg d,
    spentScratch_idig_length s.alg d, h.fillOfCount⟩

end

/-! ### The commands -/

/-- After `INIT` nothing is counted and nothing buffered (R24, R92). -/
theorem initCtx_fillOfCount (a : Alg) (x : HashCtx Chain) :
    (initCtx (familyOf a) x).count.toNat % 8 = 0 ∧
      (initCtx (familyOf a) x).fill = (initCtx (familyOf a) x).count.toNat / 8 % a.blockSize := by
  simp [initCtx]

/-- Below the length limit the counter does not wrap: it grows by the eight bits of each byte (R22, R93). -/
theorem absorbBytes_count_toNat {χ : Type} (fam : Family χ) {x : HashCtx χ} {bs : List Byte}
    (hlimit : x.count.toNat + 8 * bs.length < 2 ^ 64) :
    (absorbBytes fam x bs).count.toNat = x.count.toNat + 8 * bs.length := by
  rw [absorbBytes_count, BitVec.toNat_add, BitVec.toNat_ofNat, Nat.add_mod_mod, Nat.mod_eq_of_lt hlimit]

/-- Absorbing keeps `FILL = (COUNT / 8) mod B` (R24). -/
theorem absorbBytes_fillOfCount {a : Alg} {x : HashCtx Chain} {bs : List Byte} (hx : CtxShape a x)
    (h : x.count.toNat % 8 = 0 ∧ x.fill = x.count.toNat / 8 % a.blockSize)
    (hlimit : x.count.toNat + 8 * bs.length < 2 ^ 64) :
    (absorbBytes (familyOf a) x bs).count.toNat % 8 = 0 ∧
      (absorbBytes (familyOf a) x bs).fill = (absorbBytes (familyOf a) x bs).count.toNat / 8 % a.blockSize := by
  obtain ⟨hbits, hfill⟩ := h
  have hbytes : (x.count.toNat + 8 * bs.length) / 8 = x.count.toNat / 8 + bs.length := by omega
  rw [absorbBytes_count_toNat (familyOf a) hlimit, absorbBytes_fill (familyOf a) bs hx.buf hx.fill, hbytes, hfill,
    familyOf_blockSize, Nat.mod_add_mod]
  exact ⟨by omega, rfl⟩

/-- Every command keeps the invariant. -/
theorem exec_inv {i : Instr} {s u : State} (h : s.Inv) (he : exec i s = .next u) : u.Inv := by
  cases i with
  | init =>
    obtain rfl := Host.Outcome.next.inj ((execInit_eq s).symm.trans he)
    exact (h.withCtx (initCtx_shape h.ctx.buf) fun _ => initCtx_fillOfCount s.alg s.ctx).withResponse .ok
  | absorb addr len =>
    obtain ⟨hactive, -, hlimit, rfl⟩ := execAbsorb_next he
    rw [← readBytes_length s.mem addr.toNat len.toNat] at hlimit
    exact (h.withCtx (p := s.phase) (absorbBytes_shape h.ctx _) fun _ =>
      absorbBytes_fillOfCount h.ctx (h.fillOfCount hactive) hlimit).withResponse .ok
  | final out =>
    obtain ⟨-, hvalid, rfl⟩ := execFinal_next he
    rw [rangeOk_iff, ← finalize_length h.ctx] at hvalid
    exact ((h.withWrite hvalid).withCtx (p := .finalized) (spentCtx_shape s.alg s.draws) nofun).withInputs _ _ _ _
  | hmac out key klen msg mlen =>
    obtain ⟨-, rfl⟩ | ⟨-, -, -, hvalid, -, rfl⟩ := execHmac_next he
    · exact h.withResponse .allocFail
    · rw [rangeOk_iff, ← hmacTag_length s.mem key.toNat klen.toNat msg.toNat mlen.toNat h.scr.buf] at hvalid
      exact ((h.withWrite hvalid).withSpentScratch s.draws).withInputs _ _ _ _
  | desc =>
    obtain rfl := Host.Outcome.next.inj ((execDesc_eq s).symm.trans he)
    exact h.withInputs _ _ _ _

/-! ### Reset -/

theorem engineReset_inv {s : State} (h : s.Inv) : (engineReset s).Inv :=
  ((h.withSpentScratch (s.draws + 1)).withCtx (p := .uninit) (spentCtx_shape s.alg s.draws) nofun).withInputs _ _ _ _

theorem scrambleBytes_inv {s : State} {addr n : Nat} (h : s.Inv) (hv : ValidOperand s.params addr n) :
    (scrambleBytes addr n s).Inv := by
  have hlen : ((List.range n).map (Config.freeByte s.draws)).length = n := by simp
  exact (h.withWrite (hlen.symm ▸ hv)).withInputs _ _ _ _

/-- A command that reached its writing stage has a valid output range (R55). -/
theorem exec_written_valid {i : Instr} {s u : State} {out : Word64} (he : exec i s = .next u)
    (ht : writeTarget i = some out) (hok : u.rsp = [statusWord .ok]) :
    ValidOperand s.params out.toNat s.alg.outSize := by
  cases i with
  | init => cases ht
  | absorb addr len => cases ht
  | final out' =>
    obtain rfl := Option.some.inj ht
    obtain ⟨-, hvalid, -⟩ := execFinal_next he
    exact (rangeOk_iff _ _ _).1 hvalid
  | hmac out' key klen msg mlen =>
    obtain rfl := Option.some.inj ht
    obtain ⟨-, rfl⟩ | ⟨-, -, -, hvalid, -, -⟩ := execHmac_next he
    · exact absurd (List.cons.inj hok).1 statusWord_allocFail_ne_ok
    · exact (rangeOk_iff _ _ _).1 hvalid
  | desc => cases ht

/-- A command cut off by reset leaves the invariant (R221). -/
theorem abandon_inv {i : Instr} {s u : State} (h : s.Inv) (he : exec i s = .next u) : (abandon i u).Inv := by
  have hu := exec_inv h he
  obtain ⟨halg, hparams, -, -⟩ := exec_frame h.ctx he
  obtain ⟨hnot, -⟩ | ⟨out, -, ht, hok, -, -⟩ := exec_mem h.ctx h.scr he
  · rw [abandon_of_not_written hnot]
    exact engineReset_inv hu
  · have hvalid := exec_written_valid he ht hok
    rw [← halg, ← hparams] at hvalid
    rw [abandon_of_written ht hok]
    exact engineReset_inv (scrambleBytes_inv hu hvalid)

/-- Settles O3, by cases on the move the step took: a command keeps the invariant, cut off or not; the other moves write
host memory, the inputs or the values reset leaves free. -/
theorem everyStepKeepsInvariant : Obligations.EveryStepKeepsInvariant := by
  unfold Obligations.EveryStepKeepsInvariant
  intro s t h hstep
  obtain ⟨-, rfl⟩ | ⟨ws, rest, i, -, -, he⟩ | ⟨avail, rest, -, rfl⟩ | ⟨addr, v, rest, -, hv, rfl⟩ | ⟨rest, -, rfl⟩ |
    ⟨ws, rest, i, u, -, -, he, rfl⟩ := step_cases hstep
  · exact h
  · exact exec_inv (h.withHost rest) he
  · exact h.withInputs avail s.rsp rest s.draws
  · exact (h.withMem (wf_put addr v h.memCanonical) (memValid_of_mem_put h.memValid hv)).withHost rest
  · exact engineReset_inv (h.withHost rest)
  · exact abandon_inv (h.withHost rest) he

end Sys2Proof.Machine
end

section
/-! The decoder undoes the encoder, and only what the encoder writes decodes (30_encoding.md R71 to R75, R79); the step
that runs a decoded packet (R70). -/

namespace Sys2Proof

/-- Settles O13: of an encoded command only the address operands are left to check, and they fit. -/
theorem decodeOfEncode : Obligations.DecodeOfEncode := by
  unfold Obligations.DecodeOfEncode
  exact fun aw i hwf => (decode_encode_eq_checked aw i).trans (checked_of_wf hwf)

/-- Operand words that decode are, behind their opcode, the encoding of a well-formed command (R73, R75). -/
theorem decodeOperands_eq_command {aw op : Nat} {ops : List Word64} {i : Instr}
    (h : decodeOperands aw op ops = .command i) : encode i = BitVec.ofNat 64 op :: ops ∧ i.wf aw = true := by
  unfold decodeOperands at h
  split at h
  iterate 5
    · split at h
      · obtain ⟨hwf, rfl⟩ := checked_eq_command.1 h
        exact ⟨rfl, hwf⟩
      · cases h
  · cases h

theorem decode_eq_command {aw : Nat} {ws : List Word64} {i : Instr} (h : decode aw ws = .command i) :
    ws = encode i ∧ i.wf aw = true := by
  unfold decode at h
  split at h
  · cases h
  · next w0 ops =>
    split at h
    · next hrsvd =>
      obtain ⟨henc, hwf⟩ := decodeOperands_eq_command h
      have hw0 : BitVec.ofNat 64 (opcodeField w0).toNat = w0 := by
        rw [← word_of_opcode hrsvd, BitVec.ofNat_toNat, BitVec.setWidth_eq]
      exact ⟨by rw [henc, hw0], hwf⟩
    · cases h

/-- Settles O14: the opcode fixes the command word, its reserved field being zero, and the format fixes the operands. -/
theorem decodedPacketIsItsEncoding : Obligations.DecodedPacketIsItsEncoding := by
  unfold Obligations.DecodedPacketIsItsEncoding
  exact fun _ _ _ => decode_eq_command

/-- Settles O15: each packet is the encoding of its command, which has no address operand out of range. -/
theorem writtenPacketsDecode : Obligations.WrittenPacketsDecode := by
  unfold Obligations.WrittenPacketsDecode
  exact ⟨decodeOfEncode 64 .init rfl, decodeOfEncode 64 (.absorb 0x1000 3) (by decide),
    decodeOfEncode 64 (.final 0x2000) (by decide), decodeOfEncode 64 (.hmac 0x5000 0x4000 5 0x401e 20) (by decide),
    decodeOfEncode 64 .desc rfl⟩

end Sys2Proof

namespace Sys2Proof.Machine

theorem runPacket_of_decode {s : State} {ws : List Word64} {i : Instr} (hd : decode s.params.aw ws = .command i) :
    runPacket ws s = exec i s := by
  rw [runPacket, hd]

theorem step_of_decode {s : State} {ws : List Word64} {rest : List HostInput} {i : Instr}
    (hs : s.host = .packet ws :: rest) (hd : decode s.params.aw ws = .command i) :
    step s = exec i { s with host := rest } :=
  (step_packet hs).trans (runPacket_of_decode (s := { s with host := rest }) hd)

/-- Settles O7: the step takes the packet and runs what it decodes to. -/
theorem stepRunsDecodedCommand : Obligations.StepRunsDecodedCommand := by
  unfold Obligations.StepRunsDecodedCommand
  exact fun _ _ _ _ => step_of_decode

theorem decodeTableWord_eq_some {nbits w : Nat} {i : Instr} (h : decodeTableWord nbits w = some i) :
    decode 64 (packetOfBits (w % 2 ^ nbits)) = .command i := by
  unfold decodeTableWord at h
  split at h
  · next j hj => exact hj.trans (congrArg Decoded.command (Option.some.inj h))
  · cases h

/-- Settles O8: the packet of the table word stands first at the port, and taking it gives back the state. -/
theorem fetchWordRunsTheTableWord : Obligations.FetchWordRunsTheTableWord := by
  unfold Obligations.FetchWordRunsTheTableWord
  intro s nbits w i haw h
  have hd : decode (s.withFetchWord nbits w).params.aw (packetOfBits (w % 2 ^ nbits)) = .command i := by
    rw [withFetchWord_params, haw]
    exact decodeTableWord_eq_some h
  rw [step_of_decode (withFetchWord_host s nbits w) hd, withFetchWord_rest]

end Sys2Proof.Machine
end

section
/-! The arithmetic primitives (00_scope.md R11) by their formulas on numbers. -/

namespace Sys2Proof.Machine

/-- The two parts a rotation by `n` puts together: the low `w - n` bits moved up, and the high `n` bits moved down. They
do not overlap, so "or" is "plus". -/
theorem rotated_parts {w n x : Nat} (hn : n ≤ w) (hx : x < 2 ^ w) :
    x <<< n % 2 ^ w ||| x >>> (w - n) = x % 2 ^ (w - n) * 2 ^ n + x / 2 ^ (w - n) := by
  have hpow : 2 ^ w = 2 ^ (w - n) * 2 ^ n := by rw [← Nat.pow_add, Nat.sub_add_cancel hn]
  have hhigh : x / 2 ^ (w - n) < 2 ^ n := Nat.div_lt_of_lt_mul (hpow ▸ hx)
  rw [Nat.shiftLeft_eq, Nat.shiftRight_eq_div_pow, hpow, Nat.mul_mod_mul_right, ← Nat.shiftLeft_eq,
    ← Nat.shiftLeft_add_eq_or_of_lt hhigh]

theorem rotl_toNat {w n : Nat} (x : BitVec w) (hn : n < w) :
    (rotl x n).toNat = x.toNat * 2 ^ n % 2 ^ w + x.toNat / 2 ^ (w - n) := by
  have hpow : 2 ^ w = 2 ^ (w - n) * 2 ^ n := by rw [← Nat.pow_add, Nat.sub_add_cancel hn.le]
  rw [rotl, BitVec.toNat_rotateLeft, Nat.mod_eq_of_lt hn, rotated_parts hn.le x.isLt, hpow, Nat.mul_mod_mul_right]

/-- A rotation right by `n` is one left by `w - n`. -/
theorem rotr_toNat {w n : Nat} (x : BitVec w) (hn : n < w) :
    (rotr x n).toNat = x.toNat / 2 ^ n + x.toNat % 2 ^ n * 2 ^ (w - n) := by
  have hparts := rotated_parts (Nat.sub_le w n) x.isLt
  rw [Nat.sub_sub_self hn.le] at hparts
  rw [rotr, BitVec.toNat_rotateRight, Nat.mod_eq_of_lt hn, Nat.or_comm, hparts, Nat.add_comm]

/-- Settles O18: the library's value or bit of each operation, and for the rotations their two parts. -/
theorem arithmeticPrimitives : Obligations.ArithmeticPrimitives := by
  unfold Obligations.ArithmeticPrimitives
  refine fun w x y => ⟨BitVec.toNat_add x y, fun i _ => ⟨BitVec.getLsbD_and, BitVec.getLsbD_or, BitVec.getLsbD_xor⟩,
    BitVec.toNat_not, fun n _ => ?_, fun n _ hn => ⟨rotl_toNat x hn, rotr_toNat x hn⟩⟩
  rw [BitVec.toNat_ushiftRight, Nat.shiftRight_eq_div_pow]

end Sys2Proof.Machine
end

section
/-! Canonical host memory (20_memory.md section 1) and the host's own writes (60_exceptions.md R212). -/

namespace Sys2Proof.Machine

theorem wfFrom_cons {lo k : Nat} {v : Byte} {m : Memory} :
    Memory.wfFrom lo ((k, v) :: m) = true ↔ lo ≤ k ∧ v ≠ Config.unwrittenByte ∧ Memory.wfFrom (k + 1) m = true := by
  simp only [Memory.wfFrom, Bool.and_eq_true, decide_eq_true_eq, and_assoc]

@[simp] theorem get_cons_self (k : Nat) (v : Byte) (m : Memory) : Memory.get ((k, v) :: m) k = v := if_pos rfl

theorem get_cons_of_ne {k a : Nat} (v : Byte) (m : Memory) (h : k ≠ a) :
    Memory.get ((k, v) :: m) a = Memory.get m a := if_neg h

/-- The first listed byte reads as what no address below it, and none of an empty memory, reads as. -/
theorem get_ne_of_cons {lo k : Nat} {v : Byte} {m m' : Memory} (hm : Memory.wfFrom lo ((k, v) :: m) = true)
    (hm' : Memory.get m' k = Config.unwrittenByte) : Memory.get ((k, v) :: m) k ≠ Memory.get m' k := by
  obtain ⟨-, hv, -⟩ := wfFrom_cons.1 hm
  rwa [get_cons_self, hm']

/-- Canonical memories that read the same list the same addresses, in the same order. -/
theorem eq_of_get_eq {m m' : Memory} {lo : Nat} (hm : Memory.wfFrom lo m = true) (hm' : Memory.wfFrom lo m' = true)
    (h : ∀ a, Memory.get m a = Memory.get m' a) : m = m' := by
  induction m generalizing m' lo with
  | nil =>
    cases m' with
    | nil => rfl
    | cons c m' => exact absurd (h c.1).symm (get_ne_of_cons hm' rfl)
  | cons c m ih =>
    obtain ⟨k, v⟩ := c
    cases m' with
    | nil => exact absurd (h k) (get_ne_of_cons hm rfl)
    | cons c' m' =>
      obtain ⟨k', v'⟩ := c'
      obtain ⟨-, hv, htail⟩ := wfFrom_cons.1 hm
      obtain ⟨-, hv', htail'⟩ := wfFrom_cons.1 hm'
      obtain hlt | rfl | hlt := Nat.lt_trichotomy k k'
      · have hnone := get_of_lt (wfFrom_cons.2 ⟨Nat.le_refl k', hv', htail'⟩) hlt
        exact absurd (h k) (get_ne_of_cons hm hnone)
      · have hvv : v = v' := by simpa using h k
        have hrest : m = m' := ih htail htail' fun a => by
          by_cases hka : k = a
          · rw [get_of_lt htail (by omega), get_of_lt htail' (by omega)]
          · simpa only [get_cons_of_ne _ _ hka] using h a
        rw [hvv, hrest]
      · have hnone := get_of_lt (wfFrom_cons.2 ⟨Nat.le_refl k, hv, htail⟩) hlt
        exact absurd (h k').symm (get_ne_of_cons hm' hnone)

/-- Settles O12, by induction on the two lists: the lower of two different first addresses would read differently. -/
theorem equalReadsEqualMemory : Obligations.EqualReadsEqualMemory := by
  unfold Obligations.EqualReadsEqualMemory
  exact fun _ _ => eq_of_get_eq

theorem step_store {s : State} {addr : Nat} {v : Byte} {rest : List HostInput} (hs : s.host = .store addr v :: rest) :
    step s = hostStore addr v { s with host := rest } := by
  rw [step, hs]

theorem hostStore_of_memValid {s : State} {addr : Nat} (v : Byte) (h : s.params.memValid addr = true) :
    hostStore addr v s = .next { s with mem := Memory.put s.mem addr v } := if_pos h

theorem hostStore_of_not_memValid {s : State} {addr : Nat} (v : Byte) (h : s.params.memValid addr = false) :
    hostStore addr v s = .refused .hostAddress := if_neg (by simp [h])

/-- Settles O11: the move is one write, which is read back and leaves every other byte alone. -/
theorem hostWritesItsMemory : Obligations.HostWritesItsMemory := by
  unfold Obligations.HostWritesItsMemory
  intro s addr v rest h hs
  rw [step_store hs]
  refine ⟨fun hvalid => ⟨Memory.put s.mem addr v, hostStore_of_memValid (s := { s with host := rest }) v hvalid,
    get_put_same addr v h.memCanonical, fun c hc => get_put_other s.mem v hc.symm⟩,
    hostStore_of_not_memValid (s := { s with host := rest }) v⟩

end Sys2Proof.Machine
end

section
/-! Reset and the instance (10_state.md R35; 70_reset_and_hazards.md R220; 00_scope.md R8, R9): what reset leaves, and
that no step changes `ALG` or a parameter. -/

namespace Sys2Proof.Machine

/-- By default every address below `2^64` is memory (R9). -/
theorem default_memValid (a : Alg) {addr : Nat} (h : addr < 2 ^ 64) : (Params.default a).memValid addr = true :=
  Bool.and_eq_true_iff.2 ⟨decide_eq_true h, rfl⟩

/-- Settles O1: the fields `State.resetOf` writes; an empty memory lists no byte. -/
theorem powerOnResetState : Obligations.PowerOnResetState := by
  unfold Obligations.PowerOnResetState
  exact ⟨fun a p => ⟨atReset_alg a, rfl, rfl, rfl, rfl, fun _ => rfl⟩, ⟨.f128, rfl⟩, rfl, rfl,
    fun a => ⟨rfl, fun _ => default_memValid a⟩⟩

/-- Settles O2: host memory is empty, every register has its shape, and no digest is in progress. -/
theorem resetMeetsInvariant : Obligations.ResetMeetsInvariant := by
  unfold Obligations.ResetMeetsInvariant
  intro a p hp
  have halg : (State.resetOf a p).alg = a := atReset_alg a
  exact {
    params := hp
    memCanonical := wf_reset a p
    memValid := nofun
    ctx := halg.symm ▸ atReset_shape a
    scr := halg.symm ▸ atReset_shape a
    kb := halg.symm ▸ List.length_replicate
    idig := halg.symm ▸ List.length_replicate
    fillOfCount := nofun }

/-- Settles O6: with no move to take a step answers the state itself. -/
theorem idleEngineKeepsState : Obligations.IdleEngineKeepsState := by
  unfold Obligations.IdleEngineKeepsState
  intro s hs
  rw [step, hs]

theorem step_reset {s : State} {rest : List HostInput} (hs : s.host = .reset :: rest) :
    step s = .next (engineReset { s with host := rest }) := by
  rw [step, hs]

/-- Settles O9: `engineReset` writes the phase and the response among what is said here, and keeps `ALG`. -/
theorem resetBetweenCommands : Obligations.ResetBetweenCommands := by
  unfold Obligations.ResetBetweenCommands
  exact fun s rest hs => ⟨_, step_reset hs, rfl, rfl, rfl, engineReset_alg { s with host := rest }, rfl, rfl, rfl⟩

@[simp] theorem abandon_alg (i : Instr) (u : State) : (abandon i u).alg = u.alg := by
  unfold abandon
  split
  · rw [engineReset_alg]
    split <;> rfl
  · exact engineReset_alg u

@[simp] theorem abandon_params (i : Instr) (u : State) : (abandon i u).params = u.params := by
  unfold abandon
  split
  · rw [engineReset_params]
    split <;> rfl
  · rfl

/-- Settles O4, by cases on the move: no command changes the instance, no other move writes it, and reset keeps it. -/
theorem noStepChangesTheInstance : Obligations.NoStepChangesTheInstance := by
  unfold Obligations.NoStepChangesTheInstance
  intro s t h hstep
  obtain ⟨-, rfl⟩ | ⟨ws, rest, i, -, -, he⟩ | ⟨avail, rest, -, rfl⟩ | ⟨addr, v, rest, -, -, rfl⟩ | ⟨rest, -, rfl⟩ |
    ⟨ws, rest, i, u, -, -, he, rfl⟩ := step_cases hstep
  · exact ⟨rfl, rfl⟩
  · obtain ⟨halg, hparams, -, -⟩ := exec_frame (s := { s with host := rest }) h.ctx he
    exact ⟨halg, hparams⟩
  · exact ⟨rfl, rfl⟩
  · exact ⟨rfl, rfl⟩
  · exact ⟨engineReset_alg { s with host := rest }, rfl⟩
  · obtain ⟨halg, hparams, -, -⟩ := exec_frame (s := { s with host := rest }) h.ctx he
    exact ⟨(abandon_alg i u).trans halg, (abandon_params i u).trans hparams⟩

/-- Settles O30: the sizes are the model's table, and a length field and a digest have theirs. -/
theorem instanceSizes : Obligations.InstanceSizes := by
  unfold Obligations.InstanceSizes
  refine ⟨fun a => ⟨rfl, rfl, lenFieldOf_length a, fun h ha => ?_⟩, by decide⟩
  rw [familyOf_serialize, serializeChain_length, ha]

end Sys2Proof.Machine
end

section
/-! Refusals (60_exceptions.md R204): for each command every outcome it has, each with the condition it stands for; and
from them when it is refused, and what a step can answer. -/

namespace Sys2Proof.Machine

/-! ### The dispatcher -/

@[simp] theorem exec_absorb (addr len : Word64) (s : State) : exec (.absorb addr len) s = execAbsorb addr len s := rfl
@[simp] theorem exec_final (out : Word64) (s : State) : exec (.final out) s = execFinal out s := rfl
@[simp] theorem exec_hmac (out key klen msg mlen : Word64) (s : State) :
    exec (.hmac out key klen msg mlen) s = execHmac out key klen msg mlen s := rfl

/-- The engine has no fault (R200), so an outcome is a next state or a refusal. -/
theorem next_or_refused (o : Host.Outcome State Fault Refusal) : (∃ t, o = .next t) ∨ ∃ r, o = .refused r := by
  cases o with
  | next t => exact .inl ⟨t, rfl⟩
  | fault f => exact nomatch f
  | refused r => exact .inr ⟨r, rfl⟩

/-! ### `ABSORB` -/

section
variable {addr len : Word64} {s : State}

theorem execAbsorb_of_phaseRefusal {r : Refusal} (h : phaseRefusal s.phase = some r) :
    execAbsorb addr len s = .refused r := by
  rw [execAbsorb, h]

theorem execAbsorb_of_not_valid (hp : s.phase = .active) (hv : ¬ ValidOperand s.params addr.toNat len.toNat) :
    execAbsorb addr len s = .refused .operandRange := by
  rw [execAbsorb, phaseRefusal_eq_none.2 hp]
  exact if_neg (mt (rangeOk_iff _ _ _).1 hv)

theorem execAbsorb_of_too_long (hp : s.phase = .active) (hv : ValidOperand s.params addr.toNat len.toNat)
    (hc : 2 ^ 64 ≤ s.ctx.count.toNat + 8 * len.toNat) : execAbsorb addr len s = .refused .messageTooLong := by
  rw [execAbsorb, phaseRefusal_eq_none.2 hp]
  exact (if_pos ((rangeOk_iff _ _ _).2 hv)).trans (if_neg hc.not_gt)

variable (addr len s) in
/-- Every outcome of `ABSORB` (R95, R204). -/
theorem execAbsorb_cases :
    (s.phase = .uninit ∧ execAbsorb addr len s = .refused .contextUninit) ∨
    (s.phase = .finalized ∧ execAbsorb addr len s = .refused .contextFinalized) ∨
    (s.phase = .active ∧ ¬ ValidOperand s.params addr.toNat len.toNat ∧
      execAbsorb addr len s = .refused .operandRange) ∨
    (s.phase = .active ∧ ValidOperand s.params addr.toNat len.toNat ∧ 2 ^ 64 ≤ s.ctx.count.toNat + 8 * len.toNat ∧
      execAbsorb addr len s = .refused .messageTooLong) ∨
    (s.phase = .active ∧ ValidOperand s.params addr.toNat len.toNat ∧ s.ctx.count.toNat + 8 * len.toNat < 2 ^ 64 ∧
      execAbsorb addr len s = .next (absorbed addr len s)) := by
  cases hp : s.phase with
  | uninit => exact .inl ⟨rfl, execAbsorb_of_phaseRefusal (by rw [hp]; rfl)⟩
  | finalized => exact .inr (.inl ⟨rfl, execAbsorb_of_phaseRefusal (by rw [hp]; rfl)⟩)
  | active =>
    by_cases hv : ValidOperand s.params addr.toNat len.toNat
    · obtain hc | hc := Nat.lt_or_ge (s.ctx.count.toNat + 8 * len.toNat) (2 ^ 64)
      · exact .inr (.inr (.inr (.inr ⟨rfl, hv, hc, execAbsorb_eq hp ((rangeOk_iff _ _ _).2 hv) hc⟩)))
      · exact .inr (.inr (.inr (.inl ⟨rfl, hv, hc, execAbsorb_of_too_long hp hv hc⟩)))
    · exact .inr (.inr (.inl ⟨rfl, hv, execAbsorb_of_not_valid hp hv⟩))

end

/-! ### `FINAL` -/

section
variable {out : Word64} {s : State}

theorem execFinal_of_phaseRefusal {r : Refusal} (h : phaseRefusal s.phase = some r) :
    execFinal out s = .refused r := by
  rw [execFinal, h]

theorem execFinal_of_not_valid (hp : s.phase = .active) (hv : ¬ ValidOperand s.params out.toNat s.alg.outSize) :
    execFinal out s = .refused .operandRange := by
  rw [execFinal, phaseRefusal_eq_none.2 hp]
  exact if_neg (mt (rangeOk_iff _ _ _).1 hv)

variable (out s) in
/-- Every outcome of `FINAL` (R98, R204). -/
theorem execFinal_cases :
    (s.phase = .uninit ∧ execFinal out s = .refused .contextUninit) ∨
    (s.phase = .finalized ∧ execFinal out s = .refused .contextFinalized) ∨
    (s.phase = .active ∧ ¬ ValidOperand s.params out.toNat s.alg.outSize ∧
      execFinal out s = .refused .operandRange) ∨
    (s.phase = .active ∧ ValidOperand s.params out.toNat s.alg.outSize ∧
      execFinal out s = .next (finalized out s)) := by
  cases hp : s.phase with
  | uninit => exact .inl ⟨rfl, execFinal_of_phaseRefusal (by rw [hp]; rfl)⟩
  | finalized => exact .inr (.inl ⟨rfl, execFinal_of_phaseRefusal (by rw [hp]; rfl)⟩)
  | active =>
    by_cases hv : ValidOperand s.params out.toNat s.alg.outSize
    · exact .inr (.inr (.inr ⟨rfl, hv, execFinal_eq hp ((rangeOk_iff _ _ _).2 hv)⟩))
    · exact .inr (.inr (.inl ⟨rfl, hv, execFinal_of_not_valid hp hv⟩))

end

/-! ### `HMAC` -/

/-- The three operands of `HMAC` are valid (R55). -/
def HmacOperandsValid (s : State) (out key klen msg mlen : Word64) : Prop :=
  ValidOperand s.params key.toNat klen.toNat ∧ ValidOperand s.params msg.toNat mlen.toNat ∧
    ValidOperand s.params out.toNat s.alg.outSize

section
variable {out key klen msg mlen : Word64} {s : State}

theorem hmacOperandsValid_iff : HmacOperandsValid s out key klen msg mlen ↔
    (s.params.rangeOk key.toNat klen.toNat && s.params.rangeOk msg.toNat mlen.toNat
      && s.params.rangeOk out.toNat s.alg.outSize) = true := by
  simp only [HmacOperandsValid, Bool.and_eq_true, rangeOk_iff, and_assoc]

theorem execHmac_of_not_valid (ha : s.scratchAvail = true) (hv : ¬ HmacOperandsValid s out key klen msg mlen) :
    execHmac out key klen msg mlen s = .refused .operandRange :=
  (if_pos ha).trans (if_neg (mt hmacOperandsValid_iff.2 hv))

theorem execHmac_of_too_long (ha : s.scratchAvail = true) (hv : HmacOperandsValid s out key klen msg mlen)
    (hc : 2 ^ 61 ≤ s.alg.blockSize + mlen.toNat) : execHmac out key klen msg mlen s = .refused .messageTooLong :=
  (if_pos ha).trans ((if_pos (hmacOperandsValid_iff.1 hv)).trans (if_neg hc.not_gt))

theorem execHmac_of_valid (ha : s.scratchAvail = true) (hv : HmacOperandsValid s out key klen msg mlen)
    (hc : s.alg.blockSize + mlen.toNat < 2 ^ 61) :
    execHmac out key klen msg mlen s = .next (tagged out key klen msg mlen s) :=
  (if_pos ha).trans ((if_pos (hmacOperandsValid_iff.1 hv)).trans (if_pos hc))

variable (out key klen msg mlen s) in
/-- Every outcome of `HMAC` (R160, R161, R171, R204). -/
theorem execHmac_cases :
    (s.scratchAvail = false ∧ execHmac out key klen msg mlen s = .next (s.respond .allocFail)) ∨
    (s.scratchAvail = true ∧ ¬ HmacOperandsValid s out key klen msg mlen ∧
      execHmac out key klen msg mlen s = .refused .operandRange) ∨
    (s.scratchAvail = true ∧ HmacOperandsValid s out key klen msg mlen ∧ 2 ^ 61 ≤ s.alg.blockSize + mlen.toNat ∧
      execHmac out key klen msg mlen s = .refused .messageTooLong) ∨
    (s.scratchAvail = true ∧ HmacOperandsValid s out key klen msg mlen ∧ s.alg.blockSize + mlen.toNat < 2 ^ 61 ∧
      execHmac out key klen msg mlen s = .next (tagged out key klen msg mlen s)) := by
  cases ha : s.scratchAvail with
  | false => exact .inl ⟨rfl, execHmac_noScratch ha⟩
  | true =>
    by_cases hv : HmacOperandsValid s out key klen msg mlen
    · obtain hc | hc := Nat.lt_or_ge (s.alg.blockSize + mlen.toNat) (2 ^ 61)
      · exact .inr (.inr (.inr ⟨rfl, hv, hc, execHmac_of_valid ha hv hc⟩))
      · exact .inr (.inr (.inl ⟨rfl, hv, hc, execHmac_of_too_long ha hv hc⟩))
    · exact .inr (.inl ⟨rfl, hv, execHmac_of_not_valid ha hv⟩)

end

theorem execHmac_operandRange_iff {s : State} {out key klen msg mlen : Word64} :
    execHmac out key klen msg mlen s = .refused .operandRange ↔
      s.scratchAvail = true ∧ ¬ HmacOperandsValid s out key klen msg mlen := by
  obtain ⟨ha, he⟩ | ⟨ha, hv, he⟩ | ⟨ha, hv, hc, he⟩ | ⟨ha, hv, hc, he⟩ := execHmac_cases out key klen msg mlen s
  · simp [he, ha]
  · simp [he, ha, hv]
  · simp [he, hv]
  · simp [he, hv]

theorem execHmac_messageTooLong_iff {s : State} {out key klen msg mlen : Word64} :
    execHmac out key klen msg mlen s = .refused .messageTooLong ↔
      s.scratchAvail = true ∧ HmacOperandsValid s out key klen msg mlen ∧ 2 ^ 61 ≤ s.alg.blockSize + mlen.toNat := by
  obtain ⟨ha, he⟩ | ⟨ha, hv, he⟩ | ⟨ha, hv, hc, he⟩ | ⟨ha, hv, hc, he⟩ := execHmac_cases out key klen msg mlen s
  · simp [he, ha]
  · simp [he, hv]
  · simpa [he, ha, hv] using hc
  · simpa [he, ha, hv] using hc

/-- Settles O56: the outcomes of a command stand for conditions that exclude each other, so that each refusal is
answered exactly under its own. -/
theorem refusedExactlyOnViolations : Obligations.RefusedExactlyOnViolations := by
  unfold Obligations.RefusedExactlyOnViolations
  refine fun s => ⟨fun r => ⟨nofun, nofun⟩, fun addr len => ?_, fun out => ?_, fun out key klen msg mlen => ?_⟩
  · rw [exec_absorb]
    obtain ⟨hp, he⟩ | ⟨hp, he⟩ | ⟨hp, hv, he⟩ | ⟨hp, hv, hc, he⟩ | ⟨hp, hv, hc, he⟩ := execAbsorb_cases addr len s
    · simp [he, hp]
    · simp [he, hp]
    · simp [he, hp, hv]
    · simpa [he, hp, hv] using hc
    · simpa [he, hp, hv] using hc
  · rw [exec_final]
    obtain ⟨hp, he⟩ | ⟨hp, he⟩ | ⟨hp, hv, he⟩ | ⟨hp, hv, he⟩ := execFinal_cases out s
    · simp [he, hp]
    · simp [he, hp]
    · simp [he, hp, hv]
    · simp [he, hp, hv]
  · rw [exec_hmac]
    refine ⟨fun ha r => ?_, execHmac_operandRange_iff, ?_, fun r hr => ?_⟩
    · rw [execHmac_noScratch ha]
      nofun
    · simpa only [HmacOperandsValid, and_assoc] using execHmac_messageTooLong_iff
    · obtain ⟨-, he⟩ | ⟨-, -, he⟩ | ⟨-, -, -, he⟩ | ⟨-, -, -, he⟩ := execHmac_cases out key klen msg mlen s
      · exact nomatch he.symm.trans hr
      · exact Host.Outcome.refused.inj (he.symm.trans hr) ▸ .head _
      · exact Host.Outcome.refused.inj (he.symm.trans hr) ▸ .tail _ (.head _)
      · exact nomatch he.symm.trans hr

/-! ### The moves -/

theorem packetRefusal_mem (why : Reserved) : packetRefusal why ∈ [Refusal.reservedPacket, .packetLength] := by
  cases why <;> decide

/-- A packet is refused by the decoder or by its command (R79, R204). -/
def PacketRefused (s : State) (ws : List Word64) (r : Refusal) : Prop :=
  (∃ why, decode s.params.aw ws = .reserved why ∧ r ∈ [Refusal.reservedPacket, .packetLength]) ∨
    ∃ i, decode s.params.aw ws = .command i ∧ exec i s = .refused r

theorem runPacket_refused {s : State} {ws : List Word64} {r : Refusal} (h : runPacket ws s = .refused r) :
    PacketRefused s ws r := by
  unfold runPacket at h
  split at h
  · next i hd => exact .inr ⟨i, hd, h⟩
  · next why hd => exact .inl ⟨why, hd, Host.Outcome.refused.inj h ▸ packetRefusal_mem why⟩

/-- A command that is refused stays refused when it is cut off (R221). -/
theorem runAndReset_refused {s : State} {ws : List Word64} {r : Refusal} (h : runAndReset ws s = .refused r) :
    PacketRefused s ws r := by
  unfold runAndReset at h
  split at h
  · next i hd =>
    split at h
    · cases h
    · cases h
    · next r' he => exact .inr ⟨i, hd, he.trans (congrArg _ (Host.Outcome.refused.inj h))⟩
  · next why hd => exact .inl ⟨why, hd, Host.Outcome.refused.inj h ▸ packetRefusal_mem why⟩

theorem step_resetDuring_eq {s : State} {ws : List Word64} {rest : List HostInput}
    (hs : s.host = .resetDuring ws :: rest) : step s = runAndReset ws { s with host := rest } := by
  rw [step, hs]

theorem step_setScratch {s : State} {avail : Bool} {rest : List HostInput} (hs : s.host = .setScratch avail :: rest) :
    step s = .next { s with host := rest, scratchAvail := avail } := by
  rw [step, hs]

/-- Settles O5: a command that answers no next state is refused for one of its own reasons; a step is refused with the
packet it takes, or for the address the host writes. -/
theorem possibleOutcomes : Obligations.PossibleOutcomes := by
  unfold Obligations.PossibleOutcomes
  refine ⟨fun s => ?_, fun s => ?_⟩
  · obtain ⟨-, habsorb, hfinal, hhmac⟩ := refusedExactlyOnViolations s
    refine ⟨⟨_, execInit_eq s⟩, ⟨_, execDesc_eq s⟩, fun addr len => ?_, fun out => ?_, fun out key klen msg mlen => ?_⟩
    · obtain ⟨-, -, -, -, hmem⟩ := habsorb addr len
      exact (next_or_refused _).imp_right fun ⟨r, hr⟩ => ⟨r, hmem r hr, hr⟩
    · obtain ⟨-, -, -, hmem⟩ := hfinal out
      exact (next_or_refused _).imp_right fun ⟨r, hr⟩ => ⟨r, hmem r hr, hr⟩
    · obtain ⟨-, -, -, hmem⟩ := hhmac out key klen msg mlen
      exact (next_or_refused _).imp_right fun ⟨r, hr⟩ => ⟨r, hmem r hr, hr⟩
  · refine (next_or_refused (step s)).imp_right fun ⟨r, hr⟩ => ?_
    cases hs : s.host with
    | nil => exact nomatch (idleEngineKeepsState s hs).symm.trans hr
    | cons move rest =>
      cases move with
      | packet ws => exact .inl ⟨ws, rest, r, .inl rfl, hr, runPacket_refused ((step_packet hs).symm.trans hr)⟩
      | setScratch avail => exact nomatch (step_setScratch hs).symm.trans hr
      | store addr v =>
        refine .inr ⟨addr, v, rest, rfl, ?_⟩
        cases hv : s.params.memValid addr with
        | true =>
          have hnext := hostStore_of_memValid (s := { s with host := rest }) v hv
          exact nomatch ((step_store hs).trans hnext).symm.trans hr
        | false => exact ⟨rfl, (step_store hs).trans (hostStore_of_not_memValid (s := { s with host := rest }) v hv)⟩
      | reset => exact nomatch (step_reset hs).symm.trans hr
      | resetDuring ws =>
        exact .inl ⟨ws, rest, r, .inr rfl, hr, runAndReset_refused ((step_resetDuring_eq hs).symm.trans hr)⟩

/-- Settles O54: a command that completes did so from the phase its outcome stands for, and outside phase `ACTIVE` the
phase alone refuses `ABSORB` and `FINAL`. -/
theorem phaseTransitions : Obligations.PhaseTransitions := by
  unfold Obligations.PhaseTransitions
  refine ⟨fun i s t he => ⟨?_, ?_, ?_, ?_⟩, fun s addr len out hp => ?_, fun s rest hs => ⟨_, step_reset hs, rfl⟩⟩
  · rintro rfl
    obtain rfl := Host.Outcome.next.inj he
    rfl
  · rintro addr len rfl
    obtain ⟨hactive, -, -, rfl⟩ := execAbsorb_next he
    exact ⟨hactive, hactive⟩
  · rintro out rfl
    obtain ⟨hactive, -, rfl⟩ := execFinal_next he
    exact ⟨hactive, rfl⟩
  · rintro (rfl | ⟨out, key, klen, msg, mlen, rfl⟩)
    · obtain rfl := Host.Outcome.next.inj he
      rfl
    · obtain ⟨-, rfl⟩ | ⟨-, -, -, -, -, rfl⟩ := execHmac_next he
      · rfl
      · rfl
  · obtain ⟨r, hr⟩ := Option.ne_none_iff_exists'.1 (mt phaseRefusal_eq_none.1 hp)
    exact ⟨r, execAbsorb_of_phaseRefusal hr, execFinal_of_phaseRefusal hr⟩

/-- Settles O53, by the states the commands can answer. -/
theorem commandFrames : Obligations.CommandFrames := by
  unfold Obligations.CommandFrames
  intro i s t h he
  obtain ⟨halg, hparams, havail, hhost⟩ := exec_frame h.ctx he
  refine ⟨hparams, halg, havail, hhost, ?_, ?_, ?_, ?_, ?_⟩
  · rintro rfl
    obtain rfl := Host.Outcome.next.inj he
    exact ⟨rfl, rfl, rfl⟩
  · rintro addr len rfl
    obtain ⟨-, -, -, rfl⟩ := execAbsorb_next he
    exact ⟨rfl, rfl, rfl⟩
  · rintro out rfl
    obtain ⟨-, -, rfl⟩ := execFinal_next he
    rfl
  · rintro out key klen msg mlen rfl
    obtain ⟨-, rfl⟩ | ⟨-, -, -, -, -, rfl⟩ := execHmac_next he
    · exact ⟨rfl, rfl⟩
    · exact ⟨rfl, rfl⟩
  · rintro rfl
    obtain rfl := Host.Outcome.next.inj he
    exact ⟨rfl, rfl, rfl, rfl⟩

/-- Settles O52: a command keeps host memory or writes `OUT` bytes at its target, and does the latter only with `OK`. -/
theorem onlyFinalAndHmacWriteMemory : Obligations.OnlyFinalAndHmacWriteMemory := by
  unfold Obligations.OnlyFinalAndHmacWriteMemory
  intro i s t h he
  obtain ⟨-, hmem⟩ | ⟨target, bs, ht, hok, hlen, hmem⟩ := exec_mem h.ctx h.scr he
  · have hget (addr : Nat) : Memory.get t.mem addr = Memory.get s.mem addr := congrArg (Memory.get · addr) hmem
    exact ⟨fun _ => hmem, fun _ _ addr _ => hget addr, fun _ _ _ _ _ _ => ⟨fun addr _ => hget addr, fun _ => hmem⟩⟩
  · have hget (addr : Nat) (hout : ¬ inBytes target.toNat s.alg.outSize addr) :
        Memory.get t.mem addr = Memory.get s.mem addr := by
      rw [hmem]
      exact get_writeBytes_outside s.mem target.toNat bs (hlen ▸ hout)
    refine ⟨?_, ?_, ?_⟩
    · rintro (rfl | rfl | ⟨addr, len, rfl⟩)
      · cases ht
      · cases ht
      · cases ht
    · rintro out rfl
      exact Option.some.inj ht ▸ hget
    · rintro out key klen msg mlen rfl
      exact ⟨Option.some.inj ht ▸ hget,
        fun hfail => absurd (List.cons.inj (hfail.symm.trans hok)).1 statusWord_allocFail_ne_ok⟩

end Sys2Proof.Machine
end

section
/-! Two contexts that agree on what has a value (10_state.md R23) are absorbed into and padded alike; so a context that
stands for a message (R37) may be replaced by the one `INIT` and that message make, and gives `Hash` of it
(40_hash_commands.md R100). -/

namespace Sys2Proof.Machine

section
variable {χ : Type} {fam : Family χ} {x y : HashCtx χ}

theorem SameDigest.symm (h : SameDigest x y) : SameDigest y x :=
  ⟨h.h.symm, h.count.symm, h.fill.symm, h.buf.symm⟩

theorem SameDigest.withCount (h : SameDigest x y) (c : Word64) :
    SameDigest { x with count := c } { y with count := c } :=
  ⟨h.h, rfl, h.fill, h.buf⟩

/-- `InitCtx` makes any two contexts agree: what it leaves in the buffer lies above the fill cursor (R92). -/
theorem sameDigest_initCtx (fam : Family χ) (x y : HashCtx χ) : SameDigest (initCtx fam x) (initCtx fam y) :=
  ⟨rfl, rfl, rfl, rfl⟩

/-- A byte pushed is buffered behind equal bytes, or completes equal blocks (R96). -/
theorem SameDigest.pushByte (h : SameDigest x y) (v : Byte) (hx : x.buf.length = fam.blockSize)
    (hy : y.buf.length = fam.blockSize) (hf : x.fill < fam.blockSize) :
    SameDigest (pushByte fam x v) (Machine.pushByte fam y v) := by
  have hfy : y.fill < fam.blockSize := h.fill ▸ hf
  by_cases hb : x.fill + 1 = fam.blockSize
  · have hby : y.fill + 1 = fam.blockSize := h.fill ▸ hb
    have hblk : x.buf.set x.fill v = y.buf.set y.fill v := by
      rw [set_eq_take_append v (hb.trans hx.symm), set_eq_take_append v (hby.trans hy.symm), h.buf]
    rw [pushByte_compresses fam v hb, pushByte_compresses fam v hby]
    exact ⟨by rw [h.h, hblk], h.count, rfl, rfl⟩
  · have hby : y.fill + 1 ≠ fam.blockSize := h.fill ▸ hb
    have hbuf : (Machine.pushByte fam x v).buf.take (Machine.pushByte fam x v).fill =
        (Machine.pushByte fam y v).buf.take (Machine.pushByte fam y v).fill := by
      rw [pushByte_take_of_buffers fam v hx hf hb, pushByte_take_of_buffers fam v hy hfy hby, h.buf]
    rw [pushByte_buffers fam v hb, pushByte_buffers fam v hby] at hbuf ⊢
    exact ⟨h.h, h.count, congrArg (· + 1) h.fill, hbuf⟩

theorem SameDigest.foldl_pushByte (h : SameDigest x y) (s : List Byte) (hx : x.buf.length = fam.blockSize)
    (hy : y.buf.length = fam.blockSize) (hf : x.fill < fam.blockSize) :
    SameDigest (s.foldl (Machine.pushByte fam) x) (s.foldl (Machine.pushByte fam) y) := by
  induction s generalizing x y with
  | nil => exact h
  | cons v s ih =>
    exact ih (h.pushByte v hx hy hf) (pushByte_buf_length fam v hx) (pushByte_buf_length fam v hy)
      (pushByte_fill_lt fam v hf)

theorem SameDigest.absorbBytes (h : SameDigest x y) (s : List Byte) (hx : x.buf.length = fam.blockSize)
    (hy : y.buf.length = fam.blockSize) (hf : x.fill < fam.blockSize) :
    SameDigest (Machine.absorbBytes fam x s) (Machine.absorbBytes fam y s) := by
  rw [absorbBytes_eq_withCount fam s hx hf, absorbBytes_eq_withCount fam s hy (h.fill ▸ hf), h.count]
  exact (h.foldl_pushByte s hx hy hf).withCount _

/-- Contexts that agree give the same digest (R97). -/
theorem SameDigest.finalize_eq (h : SameDigest x y) (hB : fam.lenFieldSize < fam.blockSize) (hl : 0 < fam.lenFieldSize)
    (hx : x.buf.length = fam.blockSize) (hy : y.buf.length = fam.blockSize) (hf : x.fill < fam.blockSize) :
    finalize fam x = finalize fam y := by
  rw [finalize, finalize, padCtx_eq_foldl fam hB hl hf, padCtx_eq_foldl fam hB hl (h.fill ▸ hf), h.fill, h.count]
  exact congrArg fam.serialize (h.foldl_pushByte _ hx hy hf).h

/-! ### The message a context stands for -/

theorem Represents.fill_lt {m : List Byte} (h : Represents fam x m) (hB : 0 < fam.blockSize) :
    x.fill < fam.blockSize := by
  rw [h.fill]
  exact Nat.mod_lt _ hB

/-- Contexts that stand for the same message agree. -/
theorem Represents.sameDigest {m : List Byte} (hx : Represents fam x m) (hy : Represents fam y m) : SameDigest x y :=
  ⟨hx.h.trans hy.h.symm, hx.count.trans hy.count.symm, hx.fill.trans hy.fill.symm, hx.buf.trans hy.buf.symm⟩

theorem Represents.of_sameDigest {m : List Byte} (hx : Represents fam x m) (h : SameDigest x y)
    (hy : y.buf.length = fam.blockSize) : Represents fam y m :=
  ⟨h.count ▸ hx.count, h.fill ▸ hx.fill, h.buf ▸ hx.buf, h.h ▸ hx.h, hy⟩

/-- `InitCtx` and the bytes of a message make a context that stands for it (R94, R37). -/
theorem represents_absorbBytes_initCtx (m : List Byte) (hB : 0 < fam.blockSize) (hx : x.buf.length = fam.blockSize) :
    Represents fam (absorbBytes fam (initCtx fam x) m) m := by
  have heffect := absorbLoopEffect χ fam (initCtx fam x) m hB hx hB
  rw [show (initCtx fam x).fill = 0 from rfl, Nat.zero_add, List.take_zero, List.nil_append] at heffect
  obtain ⟨hh, -, hfill, hbuf, hcount, hsize⟩ := heffect
  exact ⟨hcount.trans (BitVec.zero_add _), hfill, hbuf, hh, hsize⟩

/-- `InitCtx` alone makes a context that stands for the empty message (R92). -/
theorem represents_initCtx (hB : 0 < fam.blockSize) (hx : x.buf.length = fam.blockSize) :
    Represents fam (initCtx fam x) [] := by
  have hempty := represents_absorbBytes_initCtx (fam := fam) [] hB hx
  rwa [absorbBytes_nil fam (x := initCtx fam x) hx hB] at hempty

/-- A context that stands for a message agrees with the one `InitCtx` and that message make. -/
theorem Represents.sameDigest_absorbBytes_initCtx {m : List Byte} (h : Represents fam x m) (hB : 0 < fam.blockSize) :
    SameDigest x (absorbBytes fam (initCtx fam x) m) :=
  h.sameDigest (represents_absorbBytes_initCtx m hB h.size)

/-- Absorbing appends to the message a context stands for (R37). -/
theorem Represents.absorbBytes {m : List Byte} (h : Represents fam x m) (s : List Byte) (hB : 0 < fam.blockSize) :
    Represents fam (Machine.absorbBytes fam x s) (m ++ s) := by
  have hfresh := represents_absorbBytes_initCtx (fam := fam) m hB h.size
  have hall := represents_absorbBytes_initCtx (fam := fam) (m ++ s) hB h.size
  rw [← absorbBytes_append fam (x := initCtx fam x) m s h.size hB] at hall
  exact hall.of_sameDigest
    ((h.sameDigest_absorbBytes_initCtx hB).symm.absorbBytes s hfresh.size h.size (hfresh.fill_lt hB))
    (absorbBytes_buf_length fam s h.size (h.fill_lt hB))

/-- A context that stands for a message gives `Hash` of it (R100). -/
theorem Represents.finalize_eq {m : List Byte} (h : Represents fam x m) (hB : fam.lenFieldSize < fam.blockSize)
    (hl : 0 < fam.lenFieldSize) : finalize fam x = hashOf fam m := by
  have hpos : 0 < fam.blockSize := by omega
  have hfresh := represents_absorbBytes_initCtx (fam := fam) m hpos h.size
  rw [(h.sameDigest_absorbBytes_initCtx hpos).finalize_eq hB hl h.size hfresh.size (h.fill_lt hpos),
    finalize_absorbBytes_initCtx fam m hB hl h.size]

end

end Sys2Proof.Machine
end

section
/-! Families seen through a map of their chaining states (40_hash_commands.md R90): the buffering and padding logic
never looks into the chaining state, so it commutes with every map that commutes with `Compress`. The recording family
maps onto the engine's own and onto the counting one. -/

namespace Sys2Proof.Machine

variable {χ ψ : Type}

/-- The context with its chaining state sent through `f`. -/
def HashCtx.mapChain (f : χ → ψ) (x : HashCtx χ) : HashCtx ψ :=
  { h := f x.h, count := x.count, buf := x.buf, fill := x.fill }

/-- `f` takes the chaining states of one family to those of another of the same sizes and commutes with `Compress`. -/
structure FamilyMap (fam : Family χ) (fam' : Family ψ) (f : χ → ψ) : Prop where
  blockSize : fam'.blockSize = fam.blockSize
  lenFieldSize : fam'.lenFieldSize = fam.lenFieldSize
  lenField : fam'.lenField = fam.lenField
  compress : ∀ h blk, fam'.compress (f h) blk = f (fam.compress h blk)

section
variable {fam : Family χ} {fam' : Family ψ} {f : χ → ψ}

theorem FamilyMap.pushByte (hf : FamilyMap fam fam' f) (x : HashCtx χ) (v : Byte) :
    pushByte fam' (x.mapChain f) v = (Machine.pushByte fam x v).mapChain f := by
  simp only [Machine.pushByte, HashCtx.mapChain, hf.blockSize, hf.compress]
  split <;> rfl

theorem FamilyMap.foldl_pushByte (hf : FamilyMap fam fam' f) (x : HashCtx χ) (s : List Byte) :
    s.foldl (Machine.pushByte fam') (x.mapChain f) = (s.foldl (Machine.pushByte fam) x).mapChain f := by
  induction s generalizing x with
  | nil => rfl
  | cons v s ih => rw [List.foldl_cons, hf.pushByte, ih, List.foldl_cons]

theorem FamilyMap.absorbLoop (hf : FamilyMap fam fam' f) (fuel : Nat) (x : HashCtx χ) (s : List Byte) :
    absorbLoop fam' fuel (x.mapChain f) s = (Machine.absorbLoop fam fuel x s).mapChain f := by
  induction fuel generalizing x s with
  | zero => rfl
  | succ fuel ih =>
    simp only [Machine.absorbLoop, hf.blockSize]
    by_cases hfull : fam.blockSize ≤ x.fill + s.length
    · rw [if_pos (show fam.blockSize ≤ (x.mapChain f).fill + s.length from hfull), if_pos hfull, ← ih]
      simp only [HashCtx.mapChain, hf.compress]
    · rw [if_neg (show ¬ fam.blockSize ≤ (x.mapChain f).fill + s.length from hfull), if_neg hfull]
      rfl

theorem FamilyMap.absorbBytes (hf : FamilyMap fam fam' f) (x : HashCtx χ) (s : List Byte) :
    absorbBytes fam' (x.mapChain f) s = (Machine.absorbBytes fam x s).mapChain f := by
  rw [Machine.absorbBytes, Machine.absorbBytes, ← hf.absorbLoop, hf.blockSize]
  rfl

theorem FamilyMap.padZero (hf : FamilyMap fam fam' f) (fuel : Nat) (x : HashCtx χ) :
    padZero fam' fuel (x.mapChain f) = (Machine.padZero fam fuel x).mapChain f := by
  induction fuel generalizing x with
  | zero => rfl
  | succ fuel ih =>
    rw [Machine.padZero, Machine.padZero, hf.pushByte, ih, hf.blockSize, hf.lenFieldSize]
    exact (apply_ite (HashCtx.mapChain f) _ _ _).symm

theorem FamilyMap.padCtx (hf : FamilyMap fam fam' f) (x : HashCtx χ) :
    padCtx fam' (x.mapChain f) = (Machine.padCtx fam x).mapChain f := by
  rw [Machine.padCtx, Machine.padCtx, hf.pushByte, hf.blockSize, hf.padZero, hf.lenField]
  exact hf.foldl_pushByte _ _

/-- Absorbing and padding commute with the map. -/
theorem FamilyMap.padCtx_absorbBytes (hf : FamilyMap fam fam' f) (x : HashCtx χ) (s : List Byte) :
    Machine.padCtx fam' (Machine.absorbBytes fam' (x.mapChain f) s) =
      (Machine.padCtx fam (Machine.absorbBytes fam x s)).mapChain f := by
  rw [hf.absorbBytes, hf.padCtx]

end

/-! ### The recording family -/

/-- Compressing the recorded blocks from `h` on gives the engine's chaining state. -/
theorem recording_familyMap (a : Alg) (h : Chain) :
    FamilyMap (recordingFamily a) (familyOf a) fun blocks => blocks.foldl compressChain h :=
  ⟨rfl, rfl, rfl, fun blocks blk => (List.foldl_append (l := blocks) (l' := [blk])).symm⟩

/-- As many blocks are recorded as counted. -/
theorem recording_familyMap_length (a : Alg) : FamilyMap (recordingFamily a) (countingFamily a) List.length :=
  ⟨rfl, rfl, rfl, fun blocks blk => (List.length_append (as := blocks) (bs := [blk])).symm⟩

theorem foldl_recordingCompress (a : Alg) (blocks l : List (List Byte)) :
    blocks.foldl (recordingFamily a).compress l = l ++ blocks := by
  induction blocks generalizing l with
  | nil => exact (List.append_nil l).symm
  | cons blk blocks ih =>
    rw [List.foldl_cons, ih]
    exact List.append_assoc l [blk] blocks

theorem length_of_mem_blocksOf {b : Nat} {s blk : List Byte} (h : blk ∈ blocksOf b s) : blk.length = b := by
  obtain ⟨j, hj, rfl⟩ := List.mem_map.1 h
  have hlast : (j + 1) * b ≤ s.length :=
    (Nat.mul_le_mul_right b (List.mem_range.1 hj)).trans (Nat.div_mul_le_self _ _)
  rw [Nat.succ_mul] at hlast
  rw [List.length_take, List.length_drop, Nat.min_eq_left (by omega)]

/-- Every block recorded while bytes are pushed is one block long. -/
theorem foldl_pushByte_recorded_length {a : Alg} {x : HashCtx (List (List Byte))} (s : List Byte)
    (hx : x.buf.length = a.blockSize) (hf : x.fill < a.blockSize) (h : ∀ blk ∈ x.h, blk.length = a.blockSize) :
    ∀ blk ∈ (s.foldl (pushByte (recordingFamily a)) x).h, blk.length = a.blockSize := by
  rw [foldl_pushByte_h (recordingFamily a) s hx hf, foldl_recordingCompress]
  intro blk hblk
  exact (List.mem_append.1 hblk).elim (h blk) length_of_mem_blocksOf

theorem padCtx_absorbBytes_recorded_length {a : Alg} {x : HashCtx (List (List Byte))} (s : List Byte)
    (hx : x.buf.length = a.blockSize) (hf : x.fill < a.blockSize) (h : ∀ blk ∈ x.h, blk.length = a.blockSize) :
    ∀ blk ∈ (padCtx (recordingFamily a) (absorbBytes (recordingFamily a) x s)).h, blk.length = a.blockSize := by
  have hbuf := absorbBytes_buf_length (recordingFamily a) s hx hf
  have hfill := absorbBytes_fill_lt (recordingFamily a) s hx hf
  rw [padCtx_eq_foldl (recordingFamily a) (lenFieldSize_lt a) (lenFieldSize_pos a) hfill]
  refine foldl_pushByte_recorded_length _ hbuf hfill ?_
  rw [absorbBytes_eq_withCount (recordingFamily a) s hx hf]
  exact foldl_pushByte_recorded_length s hx hf h

/-- Settles O40: the engine's and the counting family are images of the recording one, whose blocks are full. -/
theorem recordedBlocksAreTheCompressions : Obligations.RecordedBlocksAreTheCompressions := by
  unfold Obligations.RecordedBlocksAreTheCompressions
  intro a x s hshape real recd cntd
  have hreal : real = recd.mapChain fun blocks => blocks.foldl compressChain x.h :=
    (recording_familyMap a x.h).padCtx_absorbBytes { h := [], count := x.count, buf := x.buf, fill := x.fill } s
  have hcntd : cntd = recd.mapChain List.length :=
    (recording_familyMap_length a).padCtx_absorbBytes { h := [], count := x.count, buf := x.buf, fill := x.fill } s
  rw [hreal, hcntd]
  exact ⟨rfl, rfl, padCtx_absorbBytes_recorded_length s hshape.buf hshape.fill nofun, rfl, rfl, rfl⟩

end Sys2Proof.Machine
end

section
/-! A digest at the port (10_state.md R37; 40_hash_commands.md R95, R100, R103): the message its context stands for, its
chunks, and what `FINAL` writes. -/

namespace Sys2Proof.Machine

/-- Settles O34: both push the same bytes and count the same bits. -/
theorem chunkingInvariance : Obligations.ChunkingInvariance := by
  unfold Obligations.ChunkingInvariance
  exact fun a _ s t hshape => absorbBytes_append (familyOf a) s t hshape.buf hshape.fill

/-- Settles O37: the chunks are absorbed as one message into an empty buffer. -/
theorem digestOfAnyChunks : Obligations.DigestOfAnyChunks := by
  unfold Obligations.DigestOfAnyChunks
  intro a x chunks hx _
  rw [foldl_absorbBytes (familyOf a) (x := initCtx (familyOf a) x) chunks hx (blockSize_pos a),
    finalize_absorbBytes_initCtx (familyOf a) _ (lenFieldSize_lt a) (lenFieldSize_pos a) hx]

/-- Settles O35: `INIT` leaves nothing absorbed, an `ABSORB` appends, and the other commands leave the context. -/
theorem contextStandsForTheMessage : Obligations.ContextStandsForTheMessage := by
  unfold Obligations.ContextStandsForTheMessage
  refine fun s t h => ⟨fun he => ?_, fun addr len m hm he => ?_, fun i m hi hm he => ?_⟩
  · obtain ⟨halg, -, -, -⟩ := exec_frame h.ctx he
    rw [halg]
    obtain rfl := Host.Outcome.next.inj he
    exact represents_initCtx (fam := familyOf s.alg) (blockSize_pos s.alg) h.ctx.buf
  · obtain ⟨halg, -, -, -⟩ := exec_frame h.ctx he
    rw [halg]
    obtain ⟨-, -, -, rfl⟩ := execAbsorb_next he
    exact hm.absorbBytes _ (blockSize_pos s.alg)
  · obtain ⟨-, -, -, -, -, -, -, hhmac, hdesc⟩ := commandFrames i s t h he
    have hctx : t.ctx = s.ctx := by
      obtain rfl | ⟨out, key, klen, msg, mlen, rfl⟩ := hi
      · exact (hdesc rfl).1
      · exact (hhmac out key klen msg mlen rfl).1
    rwa [State.alg, hctx]

/-- Settles O44: reading nothing pushes nothing and counts nothing. -/
theorem absorbOfNothing : Obligations.AbsorbOfNothing := by
  unfold Obligations.AbsorbOfNothing
  intro s addr h hactive
  have hrun := execAbsorb_eq (addr := addr) (len := 0) hactive ((rangeOk_iff _ _ _).2 (.inl rfl)) s.ctx.count.isLt
  have hctx : absorbBytes (familyOf s.alg) s.ctx (Memory.readBytes s.mem addr.toNat (0 : Word64).toNat) = s.ctx :=
    absorbBytes_nil (familyOf s.alg) h.ctx.buf h.ctx.fill
  rw [absorbed, hctx] at hrun
  exact hrun

/-- What `FINAL` writes is read back (R98). -/
theorem readBytes_finalized {s : State} (out : Word64) (h : s.Inv) :
    Memory.readBytes (finalized out s).mem out.toNat s.alg.outSize = finalize (familyOf s.alg) s.ctx := by
  rw [← finalize_length h.ctx]
  exact readBytes_writeBytes out.toNat _ h.memCanonical

/-- Settles O46: the digest written is that of the message the context stands for. -/
theorem finalWritesTheDigest : Obligations.FinalWritesTheDigest := by
  unfold Obligations.FinalWritesTheDigest
  intro s t out m h hm he
  obtain ⟨-, -, rfl⟩ := execFinal_next he
  rw [readBytes_finalized out h, hm.finalize_eq (lenFieldSize_lt s.alg) (lenFieldSize_pos s.alg)]

end Sys2Proof.Machine
end

section
/-! `Compress` of the optional siblings (44_optional_siblings.md R181 to R184): `S256` is the shape of `F512` on 32-bit
words, `S384` is `F512` itself, and `S1` has a schedule and rounds of its own. -/

namespace Sys2Proof.Machine

@[simp] theorem parseBe32_length (blk : List Byte) : (parseBe32 blk).length = 16 := by simp [parseBe32]

theorem parseBe32_getD (blk : List Byte) {j : Nat} (hj : j < 16) : (parseBe32 blk).getD j 0 =
    be32 (byteAt blk (4 * j)) (byteAt blk (4 * j + 1)) (byteAt blk (4 * j + 2)) (byteAt blk (4 * j + 3)) := by
  simp [parseBe32, hj]

/-- Settles O25: the schedule words are the places of the finished schedule, the eight sequences are the words before
each round, as for `F512`. -/
theorem compressS256Rounds : Obligations.CompressS256Rounds := by
  unfold Obligations.CompressS256Rounds
  intro hin blk _
  have hlen := parseBe32_length blk
  let ws := schedule sha256Shape (parseBe32 blk)
  let v := wordsBeforeSha sha256Shape ws hin
  refine ⟨(ws.getD · 0), fun t => (v t).a, fun t => (v t).b, fun t => (v t).c, fun t => (v t).d, fun t => (v t).e,
    fun t => (v t).f, fun t => (v t).g, fun t => (v t).h, fun t => shaT1 sha256Shape ws (v t) t,
    fun t => shaT2 sha256Shape (v t), fun j hj => ?_, fun t hlo hhi => ?_, rfl, rfl, rfl, rfl, rfl, rfl, rfl, rfl,
    fun t _ => ?_, rfl⟩
  · exact (schedule_getD_block sha256Shape hlen hj).trans (parseBe32_getD blk hj)
  · exact schedule_getD_recurrence sha256Shape hlen hlo hhi
  · have hround : v (t + 1) = shaRound sha256Shape ws (v t) t := wordsBeforeSha_succ sha256Shape ws hin t
    simp only [hround]
    exact ⟨rfl, rfl, rfl, rfl, rfl, rfl, rfl, rfl, rfl, rfl⟩

/-- Settles O27: the two tables are compared entry by entry; the rest is how the model writes `S384`. -/
theorem siblingsShareF512 : Obligations.SiblingsShareF512 := by
  unfold Obligations.SiblingsShareF512
  exact ⟨by decide, fun v blk l => ⟨rfl, rfl, rfl, rfl⟩⟩

/-! ### `S1` -/

/-- Schedule word `t` of `S1` from the words before it (R183). -/
def scheduleWordS1 (ws : List Word32) (t : Nat) : Word32 :=
  rotl (ws.getD (t - 3) 0 ^^^ ws.getD (t - 8) 0 ^^^ ws.getD (t - 14) 0 ^^^ ws.getD (t - 16) 0) 1

theorem scheduleS1_eq_grown (blk : List Word32) :
    scheduleS1 blk = grown (fun ws k => scheduleWordS1 ws (k + 16)) blk 64 := rfl

theorem scheduleS1_getD_block {blk : List Word32} (hblk : blk.length = 16) {t : Nat} (ht : t < 16) :
    (scheduleS1 blk).getD t 0 = blk.getD t 0 := by
  rw [scheduleS1_eq_grown, grown_getD_of_lt _ _ (Nat.zero_le _) (by omega), grown_zero]

/-- A schedule word looks back 3, 8, 14 and 16 places, so only the words before it matter (R183). -/
theorem scheduleWordS1_congr {ws ws' : List Word32} {t : Nat} (ht : 0 < t)
    (h : ∀ i < t, ws.getD i 0 = ws'.getD i 0) : scheduleWordS1 ws t = scheduleWordS1 ws' t := by
  rw [scheduleWordS1, scheduleWordS1, h (t - 3) (by omega), h (t - 8) (by omega), h (t - 14) (by omega),
    h (t - 16) (by omega)]

/-- The recurrence of R183 holds in the finished schedule. -/
theorem scheduleS1_getD_recurrence {blk : List Word32} (hblk : blk.length = 16) {t : Nat} (hlo : 16 ≤ t)
    (hhi : t < 80) : (scheduleS1 blk).getD t 0 = scheduleWordS1 (scheduleS1 blk) t := by
  obtain ⟨k, rfl⟩ := Nat.exists_eq_add_of_le hlo
  have happended := grown_getD_appended (fun ws k => scheduleWordS1 ws (k + 16)) blk (show k < 64 by omega) 0
  rw [hblk, Nat.add_comm k 16] at happended
  rw [scheduleS1_eq_grown, happended]
  exact scheduleWordS1_congr (by omega) fun i hi => (grown_getD_of_lt _ _ (by omega) (by omega) 0).symm

/-- The words `a` to `e` before round `t` of `S1` (R183), with `ws` the schedule: after the rounds below `t`. -/
def wordsBeforeS1 (ws : List Word32) (hin : Pent) (t : Nat) : Pent := (List.range t).foldl (roundS1 ws) hin

theorem wordsBeforeS1_succ (ws : List Word32) (hin : Pent) (t : Nat) :
    wordsBeforeS1 ws hin (t + 1) = roundS1 ws (wordsBeforeS1 ws hin t) t := by
  rw [wordsBeforeS1, List.range_succ, List.foldl_append]
  rfl

/-- In the twenty rounds of group `q` the round function and constant are those of `q` (R183). -/
theorem roundS1_of_group {ws : List Word32} (v : Pent) {t q : Nat} (hlo : 20 * q ≤ t) (hhi : t < 20 * q + 20) :
    mixS1 (t / 20) v.b v.c v.d = mixS1 q v.b v.c v.d ∧
      (roundS1 ws v t).a = rotl v.a 5 + mixS1 (t / 20) v.b v.c v.d + v.e + kS1 q + ws.getD t 0 := by
  have hq : t / 20 = q := by omega
  subst hq
  exact ⟨rfl, rfl⟩

/-- Settles O26: the schedule words are the places of the finished schedule, the five sequences are the words before
each round, and the group of a round picks its function and constant. -/
theorem compressS1Rounds : Obligations.CompressS1Rounds := by
  unfold Obligations.CompressS1Rounds
  intro hin blk _
  have hlen := parseBe32_length blk
  let ws := scheduleS1 (parseBe32 blk)
  let v := wordsBeforeS1 ws hin
  have hround (t : Nat) : v (t + 1) = roundS1 ws (v t) t := wordsBeforeS1_succ ws hin t
  refine ⟨(ws.getD · 0), fun t => (v t).a, fun t => (v t).b, fun t => (v t).c, fun t => (v t).d, fun t => (v t).e,
    fun t => mixS1 (t / 20) (v t).b (v t).c (v t).d, fun j hj => ?_, fun t hlo hhi => ?_, rfl, rfl, rfl, rfl, rfl,
    fun t hhi => ?_, fun t hlo hhi => ?_, fun t hlo hhi => ?_, fun t hlo hhi => ?_, fun t _ => ?_, rfl⟩
  · exact (scheduleS1_getD_block hlen hj).trans (parseBe32_getD blk hj)
  · exact scheduleS1_getD_recurrence hlen hlo hhi
  · simp only [hround]
    exact roundS1_of_group (q := 0) (v t) (Nat.zero_le t) hhi
  · simp only [hround]
    exact roundS1_of_group (q := 1) (v t) hlo hhi
  · simp only [hround]
    exact roundS1_of_group (q := 2) (v t) hlo hhi
  · simp only [hround]
    exact roundS1_of_group (q := 3) (v t) hlo hhi
  · simp only [hround]
    exact ⟨rfl, rfl, rfl, rfl⟩

end Sys2Proof.Machine
end

section
/-! The command `HMAC` completes (43_hmac.md R160 to R167): the tag it leaves in host memory, and that of a key longer
than a block only the first `B` bytes count (R165). -/

namespace Sys2Proof.Machine

section
variable {s : State} (out key klen msg mlen : Word64) (h : s.Inv)
include h

/-- What `HMAC` writes is read back (R160). -/
theorem readBytes_tagged :
    Memory.readBytes (tagged out key klen msg mlen s).mem out.toNat s.alg.outSize =
      hmacTag s.alg s.mem key.toNat klen.toNat msg.toNat mlen.toNat s.scr := by
  rw [← hmacTag_length s.mem key.toNat klen.toNat msg.toNat mlen.toNat h.scr.buf]
  exact readBytes_writeBytes out.toNat _ h.memCanonical

theorem get_tagged_outside {c : Nat} (hc : ¬ inBytes out.toNat s.alg.outSize c) :
    Memory.get (tagged out key klen msg mlen s).mem c = Memory.get s.mem c :=
  get_writeBytes_outside s.mem out.toNat _
    (hmacTag_length s.mem key.toNat klen.toNat msg.toNat mlen.toNat h.scr.buf ▸ hc)

end

/-- Settles O47: the tag is R167's of the bytes before the write, which changes the `OUT` bytes at `out` alone. -/
theorem hmacCompletes : Obligations.HmacCompletes := by
  unfold Obligations.HmacCompletes
  intro s out key klen msg mlen h ha hkey hmsg hout hlimit
  refine ⟨tagged out key klen msg mlen s, execHmac_of_valid ha ⟨hkey, hmsg, hout⟩ hlimit, ?_,
    fun c hc => get_tagged_outside out key klen msg mlen h hc, rfl, rfl, rfl, rfl, rfl, rfl⟩
  rw [readBytes_tagged out key klen msg mlen h, hmacTag_eq_tagOf _ _ _ _ _ h.scr.buf]

/-! ### Long keys -/

/-- The first part of a valid operand is valid (R55). -/
theorem ValidOperand.shorter {p : Params} {addr n k : Nat} (h : ValidOperand p addr n) (hk : k ≤ n) :
    ValidOperand p addr k := by
  obtain rfl | ⟨htop, hall⟩ := h
  · exact .inl (Nat.le_zero.1 hk)
  · exact .inr ⟨by omega, fun i hi => hall i (by omega)⟩

/-- Key bytes from `B` on take no part in the key block (R165). -/
theorem maskKey_of_long (m : Memory) {b key klen : Nat} (p : Byte) (h : b ≤ klen) :
    maskKey m b key klen p = maskKey m b key b p := by
  rw [maskKey, maskKey, Nat.min_eq_right h, Nat.min_self]

theorem hmacTag_of_long {a : Alg} (m : Memory) {key klen : Nat} (msg mlen : Nat) (r : Scratch)
    (h : a.blockSize ≤ klen) : hmacTag a m key klen msg mlen r = hmacTag a m key a.blockSize msg mlen r := by
  simp only [hmacTag, hmacKeyStage, maskKey_of_long m _ h]

/-- The tag is made of the key and message bytes, read from wherever they stand. -/
theorem hmacTag_congr {a : Alg} {m m' : Memory} {key klen msg mlen : Nat} {r : Scratch}
    (hr : r.ctx.buf.length = a.blockSize) (hkey : Memory.readBytes m key klen = Memory.readBytes m' key klen)
    (hmsg : Memory.readBytes m msg mlen = Memory.readBytes m' msg mlen) :
    hmacTag a m key klen msg mlen r = hmacTag a m' key klen msg mlen r := by
  rw [hmacTag_eq_tagOf m _ _ _ _ hr, hmacTag_eq_tagOf m' _ _ _ _ hr, hkey, hmsg]

theorem blockSize_toNat (a : Alg) : (BitVec.ofNat 64 a.blockSize).toNat = a.blockSize :=
  Nat.mod_eq_of_lt ((blockSize_le a).trans_lt (by decide))

/-- Settles O51: the key block is that of the key cut to `B` bytes, and the tag is made of these and of the message. -/
theorem longKeysAreCut : Obligations.LongKeysAreCut := by
  unfold Obligations.LongKeysAreCut
  intro s t out key klen msg mlen h ha hlong he
  obtain ⟨hnone, -⟩ | ⟨-, hkey, hmsg, hout, hlimit, rfl⟩ := execHmac_next he
  · exact nomatch ha.symm.trans hnone
  · refine ⟨?_, fun m' hm' hkeyBytes hmsgBytes => ?_⟩
    · have hcut : s.params.rangeOk key.toNat (BitVec.ofNat 64 s.alg.blockSize).toNat = true := by
        rw [blockSize_toNat, rangeOk_iff]
        exact ((rangeOk_iff _ _ _).1 hkey).shorter hlong.le
      have htagged : tagged out key (BitVec.ofNat 64 s.alg.blockSize) msg mlen s = tagged out key klen msg mlen s := by
        rw [tagged, tagged, blockSize_toNat, ← hmacTag_of_long s.mem _ _ _ hlong.le]
      rw [exec_hmac, execHmac_eq ha hcut hmsg hout hlimit, htagged]
    · refine ⟨_, execHmac_eq (s := { s with mem := m' }) ha hkey hmsg hout hlimit, ?_⟩
      have htag : hmacTag s.alg m' key.toNat klen.toNat msg.toNat mlen.toNat s.scr =
          hmacTag s.alg s.mem key.toNat klen.toNat msg.toNat mlen.toNat s.scr := by
        rw [hmacTag_of_long m' _ _ _ hlong.le, hmacTag_of_long s.mem _ _ _ hlong.le]
        exact hmacTag_congr h.scr.buf (readBytes_congr hkeyBytes) (readBytes_congr hmsgBytes)
      rw [readBytes_tagged out key klen msg mlen h, ← htag,
        ← hmacTag_length m' key.toNat klen.toNat msg.toNat mlen.toNat h.scr.buf]
      exact readBytes_writeBytes out.toNat _ hm'

end Sys2Proof.Machine
end

section
/-! Commands one after another: two adjacent `ABSORB`s (10_state.md R37, 95_test_vectors.md V2) and the
pseudo-instruction `HASH` (30_encoding.md R82). -/

namespace Sys2Proof.Machine

/-- The rest of a valid operand is valid; where it is not empty, its address does not wrap (R55). -/
theorem ValidOperand.rest {p : Params} {addr len1 len2 : Word64} (hp : p.wf = true)
    (h : ValidOperand p addr.toNat (len1.toNat + len2.toNat)) :
    len2.toNat = 0 ∨
      ((addr + len1).toNat = addr.toNat + len1.toNat ∧ ValidOperand p (addr + len1).toNat len2.toNat) := by
  obtain hnone | hsome := Nat.eq_zero_or_pos len2.toNat
  · exact .inl hnone
  · obtain hnone | ⟨htop, hall⟩ := h
    · omega
    · simp only [Params.wf, Bool.and_eq_true, decide_eq_true_eq] at hp
      have hspace : 2 ^ p.aw ≤ 2 ^ 64 := Nat.pow_le_pow_right Nat.two_pos hp.2
      have haddr : (addr + len1).toNat = addr.toNat + len1.toNat := by
        rw [BitVec.toNat_add, Nat.mod_eq_of_lt (by omega)]
      refine .inr ⟨haddr, .inr ⟨by omega, fun i hi => ?_⟩⟩
      rw [haddr, Nat.add_assoc]
      exact hall (len1.toNat + i) (by omega)

theorem absorbed_count_toNat {s : State} {addr len : Word64} (hlimit : s.ctx.count.toNat + 8 * len.toNat < 2 ^ 64) :
    (absorbed addr len s).ctx.count.toNat = s.ctx.count.toNat + 8 * len.toNat := by
  rw [← readBytes_length s.mem addr.toNat len.toNat] at hlimit
  exact (absorbBytes_count_toNat (familyOf s.alg) hlimit).trans (by rw [readBytes_length])

/-- Settles O58: both commands read the operand's bytes in order, and absorbing two chunks is absorbing both. -/
theorem twoAbsorbsAreOne : Obligations.TwoAbsorbsAreOne := by
  unfold Obligations.TwoAbsorbsAreOne
  intro s addr len1 len2 h hactive hsum hvalid hlimit
  have hlen : (len1 + len2).toNat = len1.toNat + len2.toNat := by
    rw [BitVec.toNat_add, Nat.mod_eq_of_lt hsum]
  have hrest := hvalid.rest h.params
  have hbytes : Memory.readBytes s.mem addr.toNat len1.toNat ++ Memory.readBytes s.mem (addr + len1).toNat len2.toNat =
      Memory.readBytes s.mem addr.toNat (len1 + len2).toNat := by
    rw [hlen, readBytes_append]
    obtain hnone | ⟨haddr, -⟩ := hrest
    · rw [hnone]; rfl
    · rw [haddr]
  have halg : (absorbed addr len1 s).alg = s.alg := (absorbBytes_shape h.ctx _).alg
  have hone : absorbed (addr + len1) len2 (absorbed addr len1 s) = absorbed addr (len1 + len2) s := by
    rw [absorbed, halg, absorbed, absorbed, ← hbytes,
      ← absorbBytes_append (familyOf s.alg) _ _ h.ctx.buf h.ctx.fill]
    rfl
  refine ⟨absorbed addr len1 s, absorbed (addr + len1) len2 (absorbed addr len1 s), ?_, ?_, ?_⟩
  · exact execAbsorb_eq hactive ((rangeOk_iff _ _ _).2 (hvalid.shorter (Nat.le_add_right _ _))) (by omega)
  · refine execAbsorb_eq hactive ((rangeOk_iff _ _ _).2 (hrest.elim .inl (·.2))) ?_
    rw [absorbed_count_toNat (by omega)]
    omega
  · rw [hone]
    exact execAbsorb_eq hactive ((rangeOk_iff _ _ _).2 (hlen ▸ hvalid)) (by rw [hlen]; exact hlimit)

theorem step_encode {s : State} {i : Instr} {rest : List HostInput} (hs : s.host = .packet (encode i) :: rest)
    (hwf : i.wf s.params.aw = true) : step s = exec i { s with host := rest } :=
  step_of_decode hs (decodeOfEncode s.params.aw i hwf)

theorem run_succ_of_step {k : Nat} {s u : State} (h : step s = .next u) :
    Host.Core.run Sys2Proof.core (k + 1) s = Host.Core.run Sys2Proof.core k u := by
  have hcore : Sys2Proof.core.step s = .next u := h
  simp only [Host.Core.run, hcore]

/-- The state `INIT` answers. -/
abbrev initialized (s : State) : State :=
  State.respond { s with ctx := initCtx (familyOf s.alg) s.ctx, phase := .active } .ok

/-- Settles O59: after `INIT` the context stands for no bytes, after `ABSORB` for those at `addr`, and `FINAL` writes
their digest over whatever was at `out`. -/
theorem hashPseudoInstruction : Obligations.HashPseudoInstruction := by
  unfold Obligations.HashPseudoInstruction
  intro s out addr len rest h hs hwf hmsg hout hlen
  let s0 : State := { s with host := [.packet (encode (.absorb addr len)), .packet (encode (.final out))] ++ rest }
  let s1 : State := { initialized s0 with host := .packet (encode (.final out)) :: rest }
  let s2 : State := { absorbed addr len s1 with host := rest }
  have hinit : exec .init s0 = .next (initialized s0) := rfl
  have h1 : s1.Inv := (exec_inv (h.withHost _) hinit).withHost _
  have halg1 : s1.alg = s.alg := ivOf_alg s.alg
  have habsorb : exec (.absorb addr len) s1 = .next (absorbed addr len s1) :=
    execAbsorb_eq (s := s1) rfl ((rangeOk_iff _ _ _).2 hmsg) (show 0 + 8 * len.toNat < 2 ^ 64 by omega)
  have h2 : s2.Inv := (exec_inv h1 habsorb).withHost rest
  have halg2 : s2.alg = s.alg := (absorbBytes_shape h1.ctx _).alg.trans halg1
  obtain ⟨hempty, -, -⟩ := contextStandsForTheMessage s0 (initialized s0) (h.withHost _)
  obtain ⟨-, hmessage, -⟩ := contextStandsForTheMessage s1 (absorbed addr len s1) h1
  have hstands : Represents (familyOf s2.alg) s2.ctx (Memory.readBytes s.mem addr.toNat len.toNat) :=
    hmessage addr len [] (hempty hinit) habsorb
  obtain ⟨t, hfinal, -, -, hframe, hphase, hrsp, -, -, -, -, hhost⟩ := finalCompletes s2 out h2 rfl (halg2.symm ▸ hout)
  have hdigest := finalWritesTheDigest s2 t out _ h2 hstands hfinal
  rw [halg2] at hframe hdigest
  have hstep0 : step s = .next (initialized s0) :=
    (step_encode hs (hwf .init (by simp [Instr.hashPseudo]))).trans hinit
  have hstep1 : step (initialized s0) = .next (absorbed addr len s1) :=
    (step_encode (s := initialized s0) rfl (hwf (.absorb addr len) (by simp [Instr.hashPseudo]))).trans habsorb
  have hstep2 : step (absorbed addr len s1) = .next t :=
    (step_encode (s := absorbed addr len s1) rfl (hwf (.final out) (by simp [Instr.hashPseudo]))).trans hfinal
  refine ⟨t, ?_, hdigest, hframe, hphase, hrsp, hhost⟩
  rw [run_succ_of_step hstep0, run_succ_of_step hstep1, run_succ_of_step hstep2]
  rfl

end Sys2Proof.Machine
end

section
/-! Two machines that agree on everything that has a value (10_state.md R23, R31, R35; 40_hash_commands.md R99) answer
every move alike: first the states the commands and the reset lead to, then the commands, then the step. -/

namespace Sys2Proof.Machine

/-! ### Outcomes that agree -/

theorem sameOutcome_of_next {o o' : Host.Outcome State Fault Refusal} {u v : State} (h : SameValues u v)
    (ho : o = .next u) (ho' : o' = .next v) : SameOutcome o o' := by
  rw [ho, ho']
  exact h

theorem sameOutcome_of_refused {o o' : Host.Outcome State Fault Refusal} {r : Refusal} (ho : o = .refused r)
    (ho' : o' = .refused r) : SameOutcome o o' := by
  rw [ho, ho']
  exact rfl

/-- The engine has no fault (R200), so outcomes that agree are next states that do, or the same refusal. -/
theorem SameOutcome.cases {o o' : Host.Outcome State Fault Refusal} (h : SameOutcome o o') :
    (∃ u v, o = .next u ∧ o' = .next v ∧ SameValues u v) ∨ ∃ r, o = .refused r ∧ o' = .refused r := by
  obtain ⟨u, rfl⟩ | ⟨r, rfl⟩ := next_or_refused o
  · obtain ⟨v, rfl⟩ | ⟨r', rfl⟩ := next_or_refused o'
    · exact .inl ⟨u, v, rfl, rfl, h⟩
    · exact h.elim
  · obtain ⟨v, rfl⟩ | ⟨r', rfl⟩ := next_or_refused o'
    · exact h.elim
    · exact .inr ⟨r, rfl, congrArg _ (Eq.symm h)⟩

section
variable {s t : State} (h : SameValues s t)
include h

theorem SameValues.withHost (rest : List HostInput) : SameValues { s with host := rest } { t with host := rest } :=
  { h with host := rfl }

theorem SameValues.withScratchAvail (avail : Bool) :
    SameValues { s with scratchAvail := avail } { t with scratchAvail := avail } :=
  { h with scratchAvail := rfl }

theorem SameValues.respond (c : Status) : SameValues (s.respond c) (t.respond c) :=
  { h with rsp := rfl }

/-! ### Reset -/

theorem SameValues.engineReset : SameValues (engineReset s) (Machine.engineReset t) :=
  { h with
    alg := (engineReset_alg s).trans (h.alg.trans (engineReset_alg t).symm)
    phase := rfl
    rsp := rfl
    draws := congrArg (· + 2) h.draws
    ctx := nofun }

/-- The free bytes are those of the same draw (R221). -/
theorem SameValues.scrambleBytes (addr n : Nat) :
    SameValues (scrambleBytes addr n s) (Machine.scrambleBytes addr n t) :=
  { h with
    mem := by rw [scrambleBytes_mem, scrambleBytes_mem, h.mem, h.draws]
    draws := congrArg (· + 1) h.draws }

theorem SameValues.abandon (i : Instr) : SameValues (abandon i s) (Machine.abandon i t) := by
  unfold Machine.abandon
  cases writeTarget i with
  | none => exact h.engineReset
  | some out =>
    by_cases hok : s.rsp = [statusWord .ok]
    · have hok' : t.rsp = [statusWord .ok] := h.rsp ▸ hok
      simp only [if_pos hok, if_pos hok', h.alg]
      exact (h.scrambleBytes _ _).engineReset
    · have hok' : t.rsp ≠ [statusWord .ok] := h.rsp ▸ hok
      simp only [if_neg hok, if_neg hok']
      exact h.engineReset

/-! ### The commands -/

/-- `INIT` leaves nothing of the old context but the buffer, above the fill cursor (R92). -/
theorem SameValues.initialized : SameValues (initialized s) (Machine.initialized t) := by
  have hctx : SameDigest (initCtx (familyOf s.alg) s.ctx) (initCtx (familyOf t.alg) t.ctx) := by
    rw [h.alg]
    exact sameDigest_initCtx (familyOf t.alg) s.ctx t.ctx
  exact { h with
    alg := (ivOf_alg s.alg).trans (h.alg.trans (ivOf_alg t.alg).symm)
    phase := rfl
    rsp := rfl
    ctx := fun _ => hctx }

/-- `DESC` answers the parameters and the sizes of the instance alone (R91). -/
theorem SameValues.described :
    SameValues { s with rsp := descResponse s.params s.alg } { t with rsp := descResponse t.params t.alg } :=
  { h with rsp := congrArg₂ descResponse h.params h.alg }

variable (hs : s.Inv) (ht : t.Inv)
include hs ht

/-- The same bytes are absorbed into contexts that agree (R95). -/
theorem SameValues.absorbed (addr len : Word64) (hp : s.phase = .active) :
    SameValues (absorbed addr len s) (Machine.absorbed addr len t) := by
  have hctx : SameDigest
      (absorbBytes (familyOf s.alg) s.ctx (Memory.readBytes s.mem addr.toNat len.toNat))
      (absorbBytes (familyOf t.alg) t.ctx (Memory.readBytes t.mem addr.toNat len.toNat)) := by
    have hbuf : t.ctx.buf.length = s.alg.blockSize := h.alg ▸ ht.ctx.buf
    rw [← h.alg, ← h.mem]
    exact (h.ctx hp).absorbBytes _ hs.ctx.buf hbuf hs.ctx.fill
  exact { h with
    alg := (absorbBytes_shape hs.ctx _).alg.trans (h.alg.trans (absorbBytes_shape ht.ctx _).alg.symm)
    rsp := rfl
    ctx := fun _ => hctx }

/-- Contexts that agree give the same digest (R98); after it they hold no value (R99). -/
theorem SameValues.finalized (out : Word64) (hp : s.phase = .active) :
    SameValues (finalized out s) (Machine.finalized out t) := by
  have hdigest : finalize (familyOf s.alg) s.ctx = finalize (familyOf t.alg) t.ctx := by
    have hbuf : t.ctx.buf.length = s.alg.blockSize := h.alg ▸ ht.ctx.buf
    rw [← h.alg]
    exact (h.ctx hp).finalize_eq (lenFieldSize_lt s.alg) (lenFieldSize_pos s.alg) hs.ctx.buf hbuf hs.ctx.fill
  exact { h with
    alg := (spentCtx_alg s.alg s.draws).trans (h.alg.trans (spentCtx_alg t.alg t.draws).symm)
    phase := rfl
    mem := congrArg₂ (Memory.writeBytes · out.toNat ·) h.mem hdigest
    rsp := rfl
    draws := congrArg (· + 1) h.draws
    ctx := nofun }

/-- The tag takes nothing from the scratch (R162). -/
theorem SameValues.tagged (out key klen msg mlen : Word64) :
    SameValues (tagged out key klen msg mlen s) (Machine.tagged out key klen msg mlen t) := by
  have htag : hmacTag s.alg s.mem key.toNat klen.toNat msg.toNat mlen.toNat s.scr =
      hmacTag t.alg t.mem key.toNat klen.toNat msg.toNat mlen.toNat t.scr := by
    rw [hmacTag_eq_tagOf _ _ _ _ _ hs.scr.buf, hmacTag_eq_tagOf _ _ _ _ _ ht.scr.buf, h.alg, h.mem]
  exact { h with
    mem := congrArg₂ (Memory.writeBytes · out.toNat ·) h.mem htag
    rsp := rfl
    draws := congrArg (· + 1) h.draws }

theorem execAbsorb_sameOutcome (addr len : Word64) : SameOutcome (execAbsorb addr len s) (execAbsorb addr len t) := by
  obtain ⟨hp, he⟩ | ⟨hp, he⟩ | ⟨hp, hv, he⟩ | ⟨hp, hv, hc, he⟩ | ⟨hp, hv, hc, he⟩ := execAbsorb_cases addr len s
  · exact sameOutcome_of_refused he (execAbsorb_of_phaseRefusal (by rw [← h.phase, hp]; rfl))
  · exact sameOutcome_of_refused he (execAbsorb_of_phaseRefusal (by rw [← h.phase, hp]; rfl))
  · exact sameOutcome_of_refused he (execAbsorb_of_not_valid (h.phase ▸ hp) (h.params ▸ hv))
  · exact sameOutcome_of_refused he
      (execAbsorb_of_too_long (h.phase ▸ hp) (h.params ▸ hv) (by rwa [← (h.ctx hp).count]))
  · exact sameOutcome_of_next (h.absorbed hs ht addr len hp) he
      (execAbsorb_eq (h.phase ▸ hp) ((rangeOk_iff _ _ _).2 (h.params ▸ hv)) (by rwa [← (h.ctx hp).count]))

theorem execFinal_sameOutcome (out : Word64) : SameOutcome (execFinal out s) (execFinal out t) := by
  obtain ⟨hp, he⟩ | ⟨hp, he⟩ | ⟨hp, hv, he⟩ | ⟨hp, hv, he⟩ := execFinal_cases out s
  · exact sameOutcome_of_refused he (execFinal_of_phaseRefusal (by rw [← h.phase, hp]; rfl))
  · exact sameOutcome_of_refused he (execFinal_of_phaseRefusal (by rw [← h.phase, hp]; rfl))
  · exact sameOutcome_of_refused he (execFinal_of_not_valid (h.phase ▸ hp) (by rwa [← h.params, ← h.alg]))
  · exact sameOutcome_of_next (h.finalized hs ht out hp) he
      (execFinal_eq (h.phase ▸ hp) ((rangeOk_iff _ _ _).2 (by rwa [← h.params, ← h.alg])))

theorem execHmac_sameOutcome (out key klen msg mlen : Word64) :
    SameOutcome (execHmac out key klen msg mlen s) (execHmac out key klen msg mlen t) := by
  have hvalid : HmacOperandsValid s out key klen msg mlen ↔ HmacOperandsValid t out key klen msg mlen := by
    rw [HmacOperandsValid, HmacOperandsValid, h.params, h.alg]
  obtain ⟨ha, he⟩ | ⟨ha, hv, he⟩ | ⟨ha, hv, hc, he⟩ | ⟨ha, hv, hc, he⟩ := execHmac_cases out key klen msg mlen s
  · exact sameOutcome_of_next (h.respond .allocFail) he (execHmac_noScratch (h.scratchAvail ▸ ha))
  · exact sameOutcome_of_refused he (execHmac_of_not_valid (h.scratchAvail ▸ ha) (mt hvalid.2 hv))
  · exact sameOutcome_of_refused he (execHmac_of_too_long (h.scratchAvail ▸ ha) (hvalid.1 hv) (h.alg ▸ hc))
  · exact sameOutcome_of_next (h.tagged hs ht out key klen msg mlen) he
      (execHmac_of_valid (h.scratchAvail ▸ ha) (hvalid.1 hv) (h.alg ▸ hc))

theorem exec_sameOutcome (i : Instr) : SameOutcome (exec i s) (exec i t) := by
  cases i with
  | init => exact sameOutcome_of_next h.initialized (execInit_eq s) (execInit_eq t)
  | absorb addr len => exact execAbsorb_sameOutcome h hs ht addr len
  | final out => exact execFinal_sameOutcome h hs ht out
  | hmac out key klen msg mlen => exact execHmac_sameOutcome h hs ht out key klen msg mlen
  | desc => exact sameOutcome_of_next h.described (execDesc_eq s) (execDesc_eq t)

/-! ### The moves -/

theorem runPacket_sameOutcome (ws : List Word64) : SameOutcome (runPacket ws s) (runPacket ws t) := by
  rw [runPacket, runPacket, ← h.params]
  cases decode s.params.aw ws with
  | command i => exact exec_sameOutcome h hs ht i
  | reserved why => exact rfl

theorem runAndReset_sameOutcome (ws : List Word64) : SameOutcome (runAndReset ws s) (runAndReset ws t) := by
  rw [runAndReset, runAndReset, ← h.params]
  cases decode s.params.aw ws with
  | command i =>
    obtain ⟨u, v, hu, hv, huv⟩ | ⟨r, hr, hr'⟩ := (exec_sameOutcome h hs ht i).cases
    · simp only [hu, hv]
      exact huv.abandon i
    · simp only [hr, hr']
      exact rfl
  | reserved why => exact rfl

end

theorem hostStore_sameOutcome {s t : State} (h : SameValues s t) (addr : Nat) (v : Byte) :
    SameOutcome (hostStore addr v s) (hostStore addr v t) := by
  cases hv : s.params.memValid addr with
  | true =>
    have huv : SameValues { s with mem := Memory.put s.mem addr v } { t with mem := Memory.put t.mem addr v } :=
      { h with mem := congrArg (Memory.put · addr v) h.mem }
    exact sameOutcome_of_next huv (hostStore_of_memValid v hv) (hostStore_of_memValid v (h.params ▸ hv))
  | false =>
    exact sameOutcome_of_refused (hostStore_of_not_memValid v hv) (hostStore_of_not_memValid v (h.params ▸ hv))

/-- Settles O57, by cases on the move both machines take: each answers alike from states that agree. -/
theorem valuelessFieldsNeverMatter : Obligations.ValuelessFieldsNeverMatter := by
  unfold Obligations.ValuelessFieldsNeverMatter
  intro s t hs ht h
  have hhost : t.host = s.host := h.host.symm
  cases hmove : s.host with
  | nil => exact sameOutcome_of_next h (idleEngineKeepsState s hmove) (idleEngineKeepsState t (hhost.trans hmove))
  | cons move rest =>
    have h' := h.withHost rest
    have hmove' := hhost.trans hmove
    cases move with
    | packet ws =>
      rw [step_packet hmove, step_packet hmove']
      exact runPacket_sameOutcome h' (hs.withHost rest) (ht.withHost rest) ws
    | setScratch avail =>
      exact sameOutcome_of_next (h'.withScratchAvail avail) (step_setScratch hmove) (step_setScratch hmove')
    | store addr v =>
      rw [step_store hmove, step_store hmove']
      exact hostStore_sameOutcome h' addr v
    | reset => exact sameOutcome_of_next h'.engineReset (step_reset hmove) (step_reset hmove')
    | resetDuring ws =>
      rw [step_resetDuring_eq hmove, step_resetDuring_eq hmove']
      exact runAndReset_sameOutcome h' (hs.withHost rest) (ht.withHost rest) ws

end Sys2Proof.Machine
end
